-- ==== Sys2Proof/Word.lean ====
section
/-! DEFINITION. The word types of the LZW encoder core, with the spec's widths (10_state.md R21 to R29, decision D15). -/

namespace Sys2Proof

/-- A byte of the input or output stream (20_memory.md R52). -/
abbrev Byte := BitVec 8

/-- A code, `BITS` = 12 bits (30_encoding.md R73). -/
abbrev Code := BitVec 12

/-- A command word, 10 bits: `op[9:8]`, `data[7:0]` (30_encoding.md R70). -/
abbrev CmdWord := BitVec 10

/-- A 13-bit slot-index register (10_state.md R25). -/
abbrev Index := BitVec 13

/-- The data of a dictionary entry, "a triple (prefix_code, appended_byte, assigned_code)" (10_state.md R29). The spec's field
names are `prefix`, `byte`, `code`. -/
structure Entry where
  pre : Code
  byte : Byte
  code : Code
  deriving DecidableEq, Repr

end Sys2Proof
end

