-- ==== Sys2Proof/Config.lean ====
section
/-! DEFINITION. The constants of the reference configuration (00_scope.md R5, 10_state.md R27), the constraints every
configuration meets (00_scope.md R6), and the model's one free value. -/

namespace Sys2Proof.Config

/-- The configuration record of decision D22: the four parameters from which the other constants follow. -/
structure Params where
  bits : Nat
  tableSize : Nat
  hashShift : Nat
  accWidth : Nat
  deriving DecidableEq, Repr

/-- The hardware: `LZWENC-B12-T5021-S4-A32` (00_scope.md R1, R5). -/
def reference : Params := { bits := 12, tableSize := 5021, hashShift := 4, accWidth := 32 }

/-- `BITS`: the width of every output code. -/
def bits : Nat := 12
/-- `MAX_VALUE = (1 << BITS) − 1`: the end-of-stream code. -/
def maxValue : Nat := 4095
/-- `MAX_CODE = MAX_VALUE − 1`: the highest code assigned to an entry (decision D1, 90_conflicts.md C2). -/
def maxCode : Nat := 4094
/-- `FIRST_CODE`: the first code assigned to an entry. -/
def firstCode : Nat := 256
/-- `TABLE_SIZE`: the number of table slots. -/
def tableSize : Nat := 5021
/-- `HASH_SHIFT`: the left shift of the byte in the hash. -/
def hashShift : Nat := 4
/-- `ACC_WIDTH`: the width of the bit-buffer accumulator. -/
def accWidth : Nat := 32
/-- `DICT_CAPACITY`: the most entries the table ever holds. -/
def dictCapacity : Nat := maxCode - firstCode + 1

/-- `MAX_VALUE` of a configuration record (00_scope.md R6, K2). -/
def Params.maxValue (c : Params) : Nat := 2 ^ c.bits - 1
/-- `MAX_CODE` of a configuration record (00_scope.md R6, K2). -/
def Params.maxCode (c : Params) : Nat := c.maxValue - 1
/-- `DICT_CAPACITY` of a configuration record (00_scope.md R5). -/
def Params.dictCapacity (c : Params) : Nat := c.maxCode + 1 - firstCode

/-- Constraints K1, K3, K4 and K5 of 00_scope.md R6 (K2 defines the derived constants, K6 constrains nothing): a record that
breaks one is no configuration of this hardware (93_implementation_defined.md U2). -/
abbrev Params.legal (c : Params) : Prop :=
  9 ≤ c.bits ∧ c.dictCapacity < c.tableSize ∧ c.tableSize.Prime ∧ 7 + c.bits ≤ c.accWidth

/-- FREE VALUE (DESIGN CHOICE, log entry 1, safe). What a read of `cur` gives while it holds the spec's `no value` (10_state.md R21, R38;
93_implementation_defined.md U5: `any value`). It has no body: nothing can be proved of it. The argument is the state's
`epoch`, so that two fillings with `no value` need not agree. -/
opaque noValue : Nat → Code

end Sys2Proof.Config
end

