-- ==== Sys2Proof/Machine/Operands.lean ====
section
/-! DEFINITION. The operand forms of 30_encoding.md R77: how a literal, a recorded command word, a placed code and an output
byte are formed from bits; and the constant operand `MAX_VALUE`. -/

namespace Sys2Proof.Machine

/-- `zext_12(b)`: a byte used as a code (30_encoding.md R77 (a)). -/
def zext12 (b : Byte) : Code := b.setWidth 12

/-- `zext_16(cmd)`: a command word as recorded in `fault_info` (60_exceptions.md R191). -/
def zext16 (w : CmdWord) : BitVec 16 := w.setWidth 16

/-- `zext_32(c) << (32 − BITS − cnt)`: the code placed directly below the pending bits (30_encoding.md R77 (d)). Meant for
`cnt <= 20`. -/
def placeCode (c : Code) (cnt : Nat) : BitVec 32 := c.setWidth 32 <<< (20 - cnt)

/-- `acc[31:24]`: the output byte (30_encoding.md R77 (e)). -/
def topByte (acc : BitVec 32) : Byte := acc.extractLsb' 24 8

/-- `MAX_VALUE` as a code: the end-of-stream code EMIT gets from END (00_scope.md R5; 42_bit_packer.md R171 (f)). -/
def eosCode : Code := BitVec.ofNat 12 Config.maxValue

end Sys2Proof.Machine
end

