-- ==== Sys2Proof/Syntax.lean ====
section
/-! DEFINITION. The instructions: one constructor per row of spec/opcode_table.json. -/

namespace Sys2Proof

/-- The rows of spec/opcode_table.json: the four host commands (format CMD), the three output-code classes (format CODE) and
the six internal operations (format INTERNAL). -/
inductive Instr where
  /-- INIT: begin a fresh run (41_encoder_loop.md R132). -/
  | init
  /-- BYTE b: one input byte (41_encoder_loop.md R133, R134). -/
  | byte (b : Byte)
  /-- END: the input is exhausted (41_encoder_loop.md R135). -/
  | endOfInput
  /-- ABORT r: the host reports an I/O failure (41_encoder_loop.md R136). -/
  | abort (r : Byte)
  /-- LIT b: the output code of a literal byte (30_encoding.md R73). -/
  | lit (b : Byte)
  /-- STR c: the output code of a dictionary entry (30_encoding.md R73). -/
  | str (c : Code)
  /-- EOS: the end-of-stream output code (30_encoding.md R73). -/
  | eos
  /-- HASH p b: the initial index of a pair (40_dictionary.md R101). -/
  | hash (p : Code) (b : Byte)
  /-- OFFSET idx0: the probe step of an initial index (40_dictionary.md R102). -/
  | offset (idx0 : Index)
  /-- PROBE p b: find the pair or the first empty slot (40_dictionary.md R103). -/
  | probe (p : Code) (b : Byte)
  /-- INSERT idx p b c: write an entry into a slot (40_dictionary.md R105). -/
  | insert (idx : Index) (p : Code) (b : Byte) (c : Code)
  /-- EMIT c: pack one code (42_bit_packer.md R171). -/
  | emit (c : Code)
  /-- FLUSH: write the last partial byte and the persist marker (42_bit_packer.md R173). -/
  | flush
  deriving DecidableEq, Repr

/-- The formats of spec/opcode_table.json (30_encoding.md R70, R73, R79). -/
inductive Format where
  | cmd
  | code
  | internal
  deriving DecidableEq, Repr

/-- The table's `format` column. -/
def Instr.format : Instr → Format
  | .init | .byte _ | .endOfInput | .abort _ => .cmd
  | .lit _ | .str _ | .eos => .code
  | .hash _ _ | .offset _ | .probe _ _ | .insert _ _ _ _ | .emit _ | .flush => .internal

end Sys2Proof
end

