-- ==== Sys2Proof/WellFormed.lean ====
section
/-! DEFINITION. Which instructions are well formed: the operand ranges the spec gives, where the operand's width alone does
not give them. -/

namespace Sys2Proof

/-- A code that may be assigned to an entry: `[256, MAX_CODE]` (30_encoding.md R73). -/
abbrev Code.assignable (c : Code) : Prop := Config.firstCode ≤ c.toNat ∧ c.toNat ≤ Config.maxCode

/-- A code that may be a prefix: `[0, 4094]` (40_dictionary.md R101). -/
abbrev Code.prefixable (c : Code) : Prop := c.toNat ≤ Config.maxCode

/-- An index that names a slot: `[0, TABLE_SIZE − 1]` (20_memory.md R57). -/
abbrev Index.namesSlot (i : Index) : Prop := i.toNat < Config.tableSize

/-- The operand ranges of 30_encoding.md R73 and 40_dictionary.md R101, R102, R103, R105. -/
def Instr.wellFormed : Instr → Bool
  | .init | .byte _ | .endOfInput | .abort _ | .lit _ | .eos | .emit _ | .flush => true
  | .str c => decide (Code.assignable c)
  | .hash p _ | .probe p _ => decide (Code.prefixable p)
  | .offset i => decide (Index.namesSlot i)
  | .insert i p _ c => decide (Index.namesSlot i) && decide (Code.prefixable p) && decide (Code.assignable c)

end Sys2Proof
end

