-- ==== Sys2Proof/Decode.lean ====
section
/-! DEFINITION. Encodings: the command word (30_encoding.md R70 to R72), the output code (R73), the table slot (R75), each with
its decoder and its encoder. -/

namespace Sys2Proof

/-- `op[9:8]` of a command word (30_encoding.md R70). -/
def cmdOp (w : CmdWord) : BitVec 2 := w.extractLsb' 8 2

/-- `data[7:0]` of a command word (30_encoding.md R70). -/
def cmdData (w : CmdWord) : Byte := w.extractLsb' 0 8

/-- A command word put together: `{op, data}` (30_encoding.md R70). -/
def cmdWord (op : BitVec 2) (data : Byte) : CmdWord := op ++ data

/-- What a command word says: a command, or one of the two reserved groups by name (30_encoding.md R72). -/
inductive Decoded where
  /-- The word is this command. -/
  | command (i : Instr)
  /-- `0x001 .. 0x0FF`: INIT with non-zero data, reserved. -/
  | reservedInit (data : Byte)
  /-- `0x201 .. 0x2FF`: END with non-zero data, reserved. -/
  | reservedEnd (data : Byte)
  deriving DecidableEq, Repr

/-- The opcode map of format CMD (30_encoding.md R71), total: a word is a command or is rejected by name. -/
def decode (w : CmdWord) : Decoded :=
  match (cmdOp w).toNat with
  | 0 => if cmdData w = 0#8 then .command .init else .reservedInit (cmdData w)
  | 1 => .command (.byte (cmdData w))
  | 2 => if cmdData w = 0#8 then .command .endOfInput else .reservedEnd (cmdData w)
  | _ => .command (.abort (cmdData w))

/-- The class of an output code, a property of its value alone (30_encoding.md R73). -/
def decodeCode (c : Code) : Instr :=
  if c.toNat < Config.firstCode then .lit (c.extractLsb' 0 8)
  else if c.toNat = Config.maxValue then .eos
  else .str c

/-- The word of INIT (30_encoding.md R71). -/
def initWord : CmdWord := cmdWord 0#2 0#8
/-- The word of BYTE b (30_encoding.md R71). -/
def byteWord (b : Byte) : CmdWord := cmdWord 1#2 b
/-- The word of END (30_encoding.md R71). -/
def endWord : CmdWord := cmdWord 2#2 0#8
/-- The word of ABORT r (30_encoding.md R71). -/
def abortWord (r : Byte) : CmdWord := cmdWord 3#2 r

/-- How an instruction is written: a command word, an output code, or no bits at all (30_encoding.md R79). -/
inductive Encoding where
  | command (w : CmdWord)
  | code (c : Code)
  | internal
  deriving DecidableEq, Repr

/-- The format an encoding has. -/
def Encoding.format : Encoding → Format
  | .command _ => .cmd
  | .code _ => .code
  | .internal => .internal

/-- The encoder, from the tables of 30_encoding.md R71 and R73; an internal operation has no encoding (R79). -/
def encode : Instr → Encoding
  | .init => .command initWord
  | .byte b => .command (byteWord b)
  | .endOfInput => .command endWord
  | .abort r => .command (abortWord r)
  | .lit b => .code (b.setWidth 12)
  | .str c => .code c
  | .eos => .code 0xFFF#12
  | .hash _ _ | .offset _ | .probe _ _ | .insert _ _ _ _ | .emit _ | .flush => .internal

/-- The instruction an encoding stands for; no bits stand for none, and a reserved command word is none. -/
def decodeEncoding : Encoding → Option Instr
  | .command w =>
    match decode w with
    | .command i => some i
    | .reservedInit _ | .reservedEnd _ => none
  | .code c => some (decodeCode c)
  | .internal => none

/-- An occupied slot as 33 bits: `{valid = 1, prefix, byte, code}` (30_encoding.md R75). -/
def encodeSlot (e : Entry) : BitVec 33 := 1#1 ++ e.pre ++ e.byte ++ e.code

/-- A 33-bit slot read back: the other 32 bits have no meaning while `valid` is 0 (30_encoding.md R75). -/
def decodeSlot (w : BitVec 33) : Option Entry :=
  if w.getLsbD 32 then
    some { pre := w.extractLsb' 20 12, byte := w.extractLsb' 12 8, code := w.extractLsb' 0 12 }
  else none

/-- The instruction of an opcode-table word. DESIGN CHOICE (log entry 12, safe): the spec tells formats CMD and CODE apart by
the port, not by the bits, and both fill 16 bits in whole bytes; so a word that fits the ten command wires is read as a command
word, a longer one that fits twelve bits as an output code; 12 bits asked for as such are an output code. -/
def decodeTableWord (nbits w : Nat) : Option Instr :=
  if nbits = 12 then (if w < 4096 then decodeEncoding (.code (BitVec.ofNat 12 w)) else none)
  else if w < 1024 then decodeEncoding (.command (BitVec.ofNat 10 w))
  else if w < 4096 then decodeEncoding (.code (BitVec.ofNat 12 w))
  else none

end Sys2Proof
end

