-- ==== Sys2Proof/Machine/State.lean ====
section
/-! DEFINITION. The state of the LZW encoder core: every register and memory of 10_state.md R20 to R36, the output trace
(00_scope.md R9) and what the host presents at the ports (10_state.md R34), as plain data; and the state after reset. -/

namespace Sys2Proof.Machine

/-- The values of the FSM register `state` (10_state.md R24). -/
inductive Phase where
  | start
  | running
  | flushing
  | done
  deriving DecidableEq, Repr

/-- One event of the output trace (00_scope.md R9). -/
inductive OutEvent where
  /-- A byte written to the output sink. -/
  | outByte (b : Byte)
  /-- The sink is told to persist any buffered bytes. -/
  | outPersist
  deriving DecidableEq, Repr

/-- What the host does at the core's inputs during one step (10_state.md R34). -/
inductive HostAction where
  /-- It presents this word on the command port. -/
  | command (w : CmdWord)
  /-- It asserts `rst` (70_reset_and_hazards.md R220). -/
  | reset
  deriving DecidableEq, Repr

/-- The causes a rule can raise (60_exceptions.md R191). -/
inductive Cause where
  | ioFail
  | protocol
  | probeOverflow
  deriving DecidableEq, Repr

/-- The dictionary table `T`: the occupied slots as (index, entry) pairs with rising indices. An unlisted slot is empty, which
is its reset content (10_state.md R28, R36; log entry 3, DESIGN CHOICE, safe). -/
abbrev Memory := List (Nat × Entry)

/-- The canonical form: indices strictly rising, each naming a slot (20_memory.md R57). -/
abbrev Memory.wf (m : Memory) : Prop :=
  (m.map Prod.fst).Pairwise (· < ·) ∧ ∀ x ∈ m, x.1 < Config.tableSize

/-- Why the model stops. -/
inductive Fault where
  /-- Raised by `memWrite` and `execOffset` for an index 5021 .. 8191, which names no slot (20_memory.md R57;
  93_implementation_defined.md U19; log entry 13). Safe: the model stops. No command can reach it. -/
  | noSuchSlot (i : Index)
  deriving DecidableEq, Repr

/-- Why the model gives an instruction no meaning. -/
inductive Refusal where
  /-- Raised by an arm of `exec` whose instruction has no meaning yet. Safe: the model stops. -/
  | notModelled (mnemonic : String)
  /-- Raised by `emit` when `cnt > 20`: the shift amount of EMIT would be negative (93_implementation_defined.md U21, `refuse`;
  log entry 14). Safe: the model stops. No run can reach it. -/
  | negativeShift (cnt : BitVec 5)
  deriving DecidableEq, Repr

/-- The architectural state (10_state.md R20), the probe scratch (R25) and the two streams (R31). -/
structure State where
  /-- The FSM register (R24). -/
  state : Phase
  /-- The current code, or `no value` (R21). -/
  cur : Option Code
  /-- The next assignable code (R22). -/
  next : Code
  /-- The bit-buffer accumulator (R23). -/
  acc : BitVec 32
  /-- The count of pending bits (R23). -/
  cnt : BitVec 5
  /-- The dictionary table `T` (R28). -/
  table : Memory
  /-- The fault register (R26). -/
  fault : BitVec 2
  /-- `fault_info` (R26). -/
  faultInfo : BitVec 16
  /-- Probe scratch `idx`, or `no value` (R25; DESIGN CHOICE, log entry 4: the scratch is kept in State). -/
  idx : Option Index
  /-- Probe scratch `off`, or `no value` (R25). -/
  off : Option Index
  /-- Probe scratch `n`, or `no value` (R25). -/
  n : Option Index
  /-- The output trace, oldest event first (00_scope.md R9). -/
  out : List OutEvent
  /-- What the host does at the inputs in the steps to come, oldest first (DESIGN CHOICE, log entry 6). -/
  input : List HostAction
  /-- The model's own: which free value `no value` in `cur` stands for (DESIGN CHOICE, log entry 2). -/
  epoch : Nat
  deriving DecidableEq, Repr

/-- The state after reset (10_state.md R36; 70_reset_and_hazards.md R220). `input` and `epoch` are not the spec's:
DESIGN CHOICE, log entries 6 and 2. -/
def State.reset : State :=
  { state := .start, cur := none, next := 256#12, acc := 0#32, cnt := 0#5, table := [], fault := 0#2, faultInfo := 0#16,
    idx := none, off := none, n := none, out := [], input := [], epoch := 0 }

end Sys2Proof.Machine
end

