-- ==== Sys2Proof/Machine/Ops.lean ====
section
/-! DEFINITION. The named operations over memory and registers: table access, the output trace, raising a fault and leaving it
by reset, reading `cur`, the probe scratch, sequencing. -/

namespace Sys2Proof.Machine

/-- Go on from a next state; a fault or a refusal ends the step. -/
def andThen (o : Host.Outcome State Fault Refusal) (k : State → Host.Outcome State Fault Refusal) :
    Host.Outcome State Fault Refusal :=
  match o with
  | .next s => k s
  | .fault r => .fault r
  | .refused r => .refused r

/-- The slot with index `i`, `none` being the empty slot (`MemRead`, 20_memory.md R54). -/
def tableRead : Memory → Nat → Option Entry
  | [], _ => none
  | (j, e) :: rest, i => if i = j then some e else if i < j then none else tableRead rest i

/-- The table with the whole slot `i` replaced (`MemWrite`, 20_memory.md R55). Writing the empty slot unlists it. -/
def tableWrite : Memory → Nat → Option Entry → Memory
  | [], _, none => []
  | [], i, some e => [(i, e)]
  | (j, f) :: rest, i, v =>
    if i < j then
      match v with
      | none => (j, f) :: rest
      | some e => (i, e) :: (j, f) :: rest
    else if i = j then
      match v with
      | none => rest
      | some e => (i, e) :: rest
    else (j, f) :: tableWrite rest i v

/-- `T[i] <- v`; an index past the table names no slot (20_memory.md R55, R57; DEDUCED, log entry 13, safe). -/
def memWrite (i : Nat) (v : Option Entry) (s : State) : Host.Outcome State Fault Refusal :=
  if i < Config.tableSize then .next { s with table := tableWrite s.table i v }
  else .fault (.noSuchSlot (BitVec.ofNat 13 i))

/-- `OutByte(b)`: append the event (00_scope.md R12). -/
def outByte (b : Byte) (s : State) : State := { s with out := s.out ++ [.outByte b] }

/-- `OutPersist`: append the event (00_scope.md R12). -/
def outPersist (s : State) : State := { s with out := s.out ++ [.outPersist] }

/-- The cause codes of `fault[1:0]` (60_exceptions.md R191). -/
def causeCode : Cause → BitVec 2
  | .ioFail => 1#2
  | .protocol => 2#2
  | .probeOverflow => 3#2

/-- TAKING A FAULT: `raise <Cause>(info)` (60_exceptions.md R194). Applied to the state before the step, so that none of the
step's other writes take place. -/
def raise (c : Cause) (info : BitVec 16) (s : State) : State :=
  if s.fault = 0#2 then { s with fault := causeCode c, faultInfo := info } else s

/-- LEAVING A FAULT: reset is the only way out (60_exceptions.md R199; 70_reset_and_hazards.md R220). Every register takes its
reset value and the trace is empty; what the host does next stays, and `no value` is filled anew (DEDUCED, log entry 8; DESIGN CHOICE, log entry 2). -/
def applyReset (s : State) : State := { State.reset with input := s.input, epoch := s.epoch + 1 }

/-- While `fault != 0` nothing is accepted and nothing changes (41_encoder_loop.md R142; DEDUCED, log entries 7
and 11). -/
def whenHealthy (s : State) (o : Host.Outcome State Fault Refusal) : Host.Outcome State Fault Refusal :=
  if s.fault = 0#2 then o else .next s

/-- The value read from `cur`: a free value while `cur` holds `no value` (10_state.md R38; DESIGN CHOICE, log
entry 1). -/
def readCur (s : State) : Code := s.cur.getD (Config.noValue s.epoch)

/-- The probe scratch holds `no value` between steps (10_state.md R25). -/
def forgetScratch (s : State) : State := { s with idx := none, off := none, n := none }

/-- Everything "created fresh per compression run": the effect of INIT (41_encoder_loop.md R132; 10_state.md R36). -/
def freshRun (s : State) : State :=
  { s with state := .start, cur := none, next := 256#12, acc := 0#32, cnt := 0#5, table := [], idx := none, off := none,
           n := none, epoch := s.epoch + 1 }

end Sys2Proof.Machine
end

