-- ==== Sys2Proof/Machine/Packer.lean ====
section
/-! DEFINITION. The bit packer: EMIT and FLUSH (42_bit_packer.md), as functions the commands call and as the meanings of their
opcode-table rows (DESIGN CHOICE, log entry 10, and DEDUCED, log entry 11). -/

namespace Sys2Proof.Machine

/-- `push_bits(c)` (42_bit_packer.md R171, R172). `cnt` is a 5-bit register (DEDUCED, log entry 15). -/
def pushBits (c : Code) (s : State) : State :=
  { s with acc := s.acc ||| placeCode c s.cnt.toNat, cnt := s.cnt + BitVec.ofNat 5 Config.bits }

/-- `drain_byte()` (42_bit_packer.md R171, R172). -/
def drainByte (s : State) : State :=
  { outByte (topByte s.acc) s with acc := s.acc <<< 8, cnt := s.cnt - 8#5 }

/-- `drain_byte()` while `cnt >= 8`, at most `fuel` times (42_bit_packer.md R171). -/
def drainLoop : (fuel : Nat) → State → State
  | 0, s => s
  | fuel + 1, s => if 8 ≤ s.cnt.toNat then drainLoop fuel (drainByte s) else s

/-- The state after EMIT(c): push, then drain. A 5-bit count of at most 31 drains at most three times. -/
def emitted (c : Code) (s : State) : State := drainLoop 3 (pushBits c s)

/-- EMIT(c) (42_bit_packer.md R171). With `cnt > 20` the shift amount would be negative (DEDUCED, log entry 14, safe). -/
def emit (c : Code) (s : State) : Host.Outcome State Fault Refusal :=
  if s.cnt.toNat ≤ 20 then .next (emitted c s) else .refused (.negativeShift s.cnt)

/-- FLUSH() (42_bit_packer.md R173). -/
def flush (s : State) : State :=
  if 0 < s.cnt.toNat then outPersist { outByte (topByte s.acc) s with acc := s.acc <<< 8, cnt := 0#5 }
  else outPersist s

/-- EMIT as an instruction (42_bit_packer.md R171). -/
def execEmit (c : Code) (s : State) : Host.Outcome State Fault Refusal :=
  whenHealthy s (emit c s)

/-- FLUSH as an instruction (42_bit_packer.md R173). -/
def execFlush (s : State) : Host.Outcome State Fault Refusal :=
  whenHealthy s (.next (flush s))

end Sys2Proof.Machine
end

