-- ==== Sys2Proof/Machine/Codes.lean ====
section
/-! DEFINITION. The three output-code classes LIT, STR, EOS (30_encoding.md R73) as instructions: what the core does with an
output code is to pack it, EMIT (42_bit_packer.md R170, R171). DESIGN CHOICE, log entry 9, safe. -/

namespace Sys2Proof.Machine

/-- LIT b: the code of the byte `b` is packed (30_encoding.md R73, R77 (a)). -/
def execLit (b : Byte) (s : State) : Host.Outcome State Fault Refusal :=
  whenHealthy s (emit (zext12 b) s)

/-- STR c: the code of a dictionary entry is packed (30_encoding.md R73). -/
def execStr (c : Code) (s : State) : Host.Outcome State Fault Refusal :=
  whenHealthy s (emit c s)

/-- EOS: the end-of-stream code `MAX_VALUE` is packed like any other code (30_encoding.md R73; 42_bit_packer.md R171 (d)). -/
def execEos (s : State) : Host.Outcome State Fault Refusal :=
  whenHealthy s (emit eosCode s)

end Sys2Proof.Machine
end

