-- ==== Sys2Proof/Machine/Dictionary.lean ====
section
/-! DEFINITION. The dictionary table operations HASH, OFFSET, PROBE, INSERT (40_dictionary.md), as functions the commands call
and as the meanings of their opcode-table rows (DESIGN CHOICE, log entry 10, and DEDUCED, log entry 11). -/

namespace Sys2Proof.Machine

/-- HASH(p, b) (40_dictionary.md R101): `(zext_12(b) << HASH_SHIFT) XOR p` in 12 bits, reduced by remainder (decision D2). -/
def hashIndex (p : Code) (b : Byte) : Nat :=
  ((b.setWidth 12 <<< Config.hashShift) ^^^ p).toNat % Config.tableSize

/-- OFFSET(idx0) (40_dictionary.md R102). -/
def probeOffset (idx0 : Nat) : Nat := if idx0 = 0 then 1 else Config.tableSize - idx0

/-- The next slot of a walk: `idx − off`, with `TABLE_SIZE` added once on underflow (40_dictionary.md R103; 00_scope.md R13 (c)). -/
def nextIndex (off idx : Nat) : Nat := if idx < off then idx + Config.tableSize - off else idx - off

/-- What PROBE finds, with the slot and the count `n` of unsuccessful inspections (40_dictionary.md R103). -/
inductive ProbeResult where
  /-- The slot holds the pair; its entry was read (40_dictionary.md R108). -/
  | hit (idx n : Nat) (e : Entry)
  /-- The slot is the first empty one. -/
  | miss (idx n : Nat)
  /-- Every slot was inspected in vain (40_dictionary.md R106). -/
  | overflow
  deriving DecidableEq, Repr

/-- The probe loop from slot `idx` after `n` unsuccessful inspections, with `left = TABLE_SIZE − n` inspections left
(40_dictionary.md R103). Emptiness is tested first (decision D23). -/
def probeLoop (t : Memory) (p : Code) (b : Byte) (off : Nat) : (left idx n : Nat) → ProbeResult
  | 0, _, _ => .overflow
  | left + 1, idx, n =>
    match tableRead t idx with
    | none => .miss idx n
    | some e =>
      if e.pre = p ∧ e.byte = b then .hit idx n e
      else probeLoop t p b off left (nextIndex off idx) (n + 1)

/-- PROBE(p, b), the document's `lookup_or_reserve` (40_dictionary.md R100, R103). -/
def probe (t : Memory) (p : Code) (b : Byte) : ProbeResult :=
  probeLoop t p b (probeOffset (hashIndex p b)) Config.tableSize (hashIndex p b) 0

/-- INSERT(idx, p, b, c) (40_dictionary.md R105): the one slot write of the core. -/
def insertEntry (idx : Nat) (p : Code) (b : Byte) (c : Code) (s : State) : Host.Outcome State Fault Refusal :=
  memWrite idx (some { pre := p, byte := b, code := c }) s

/-- The probe scratch after a PROBE that ended at `idx` after `n` unsuccessful inspections (40_dictionary.md R103). -/
def setScratch (p : Code) (b : Byte) (idx n : Nat) (s : State) : State :=
  { s with idx := some (BitVec.ofNat 13 idx), off := some (BitVec.ofNat 13 (probeOffset (hashIndex p b))),
           n := some (BitVec.ofNat 13 n) }

/-- `PROBE_OVERFLOW` with the initial index of the failed lookup (60_exceptions.md R191). -/
def raiseProbeOverflow (p : Code) (b : Byte) (s : State) : State :=
  raise .probeOverflow (BitVec.ofNat 16 (hashIndex p b)) s

/-- HASH as an instruction: `idx = HASH(p, b)`, PROBE's first assignment (40_dictionary.md R101, R103). -/
def execHash (p : Code) (b : Byte) (s : State) : Host.Outcome State Fault Refusal :=
  whenHealthy s (.next { s with idx := some (BitVec.ofNat 13 (hashIndex p b)) })

/-- OFFSET as an instruction: `off = OFFSET(idx0)`, PROBE's second assignment (40_dictionary.md R102, R103). An operand that
names no slot is no initial index (DEDUCED, log entry 13, safe). -/
def execOffset (idx0 : Index) (s : State) : Host.Outcome State Fault Refusal :=
  whenHealthy s <|
    if idx0.toNat < Config.tableSize then .next { s with off := some (BitVec.ofNat 13 (probeOffset idx0.toNat)) }
    else .fault (.noSuchSlot idx0)

/-- PROBE as an instruction: it writes the scratch, or raises `PROBE_OVERFLOW` (40_dictionary.md R103, R106). -/
def execProbe (p : Code) (b : Byte) (s : State) : Host.Outcome State Fault Refusal :=
  whenHealthy s <|
    match probe s.table p b with
    | .hit idx n _ => .next (setScratch p b idx n s)
    | .miss idx n => .next (setScratch p b idx n s)
    | .overflow => .next (raiseProbeOverflow p b s)

/-- INSERT as an instruction (40_dictionary.md R105; on an occupied slot DEDUCED, log entry 16). -/
def execInsert (idx : Index) (p : Code) (b : Byte) (c : Code) (s : State) : Host.Outcome State Fault Refusal :=
  whenHealthy s (insertEntry idx.toNat p b c s)

end Sys2Proof.Machine
end

