-- ==== Sys2Proof/Machine/Flags.lean ====
section
/-! DEFINITION. The derived flags (10_state.md R32) and the status outputs (R33, R34; 60_exceptions.md R200): pure functions of
the state, none stored. -/

namespace Sys2Proof.Machine

/-- `dict_full`: `next > MAX_CODE` (10_state.md R32). -/
def dictFull (s : State) : Bool := decide (Config.maxCode < s.next.toNat)

/-- `done`: `state = DONE` (10_state.md R32), a level output (60_exceptions.md R200). -/
def isDone (s : State) : Bool := decide (s.state = .done)

/-- `faulted`: `fault != 0` (10_state.md R32), a level output (60_exceptions.md R200). -/
def isFaulted (s : State) : Bool := decide (s.fault ≠ 0#2)

/-- `hit`: the slot PROBE returned, held in `idx`, is occupied (10_state.md R32). -/
def hit (s : State) : Bool :=
  match s.idx with
  | some i => (tableRead s.table i.toNat).isSome
  | none => false

/-- `cmd_ready` between steps: the core accepts a command unless it is faulted (10_state.md R34). -/
def cmdReady (s : State) : Bool := decide (s.fault = 0#2)

/-- The numbering of the FSM states (10_state.md R24). -/
def phaseBits : Phase → BitVec 2
  | .start => 0#2
  | .running => 1#2
  | .flushing => 2#2
  | .done => 3#2

/-- `st_state[1:0]` (10_state.md R34). -/
def stState (s : State) : BitVec 2 := phaseBits s.state
/-- `st_fault[1:0]` (10_state.md R34). -/
def stFault (s : State) : BitVec 2 := s.fault
/-- `st_info[15:0]` (10_state.md R34). -/
def stInfo (s : State) : BitVec 16 := s.faultInfo
/-- `st_full` (10_state.md R34). -/
def stFull (s : State) : Bool := dictFull s

end Sys2Proof.Machine
end

