-- ==== Sys2Proof/Machine/Commands.lean ====
section
/-! DEFINITION. The four commands INIT, BYTE, END, ABORT (41_encoder_loop.md). -/

namespace Sys2Proof.Machine

/-- A command not legal in the current `state`: `PROTOCOL` with the command word (41_encoder_loop.md R131; 60_exceptions.md
R191, R193). -/
def raiseProtocol (w : CmdWord) (s : State) : State := raise .protocol (zext16 w) s

/-- INIT (41_encoder_loop.md R132): legal in START and DONE. -/
def execInit (s : State) : Host.Outcome State Fault Refusal :=
  whenHealthy s <|
    match s.state with
    | .start => .next (freshRun s)
    | .done => .next (freshRun s)
    | .running => .next (raiseProtocol initWord s)
    | .flushing => .next (raiseProtocol initWord s)

/-- BYTE b in START: the first byte of the stream (41_encoder_loop.md R133). -/
def firstByte (b : Byte) (s : State) : State := { s with cur := some (zext12 b), state := .running }

/-- The insertion of a miss: the entry gets the code `next` and `next` is incremented, unless the code space is exhausted
(41_encoder_loop.md R134, R137). -/
def learn (idx : Nat) (p : Code) (b : Byte) (s : State) : Host.Outcome State Fault Refusal :=
  if dictFull s then .next s
  else andThen (insertEntry idx p b s.next s) fun s' => .next { s' with next := s'.next + 1#12 }

/-- BYTE b in RUNNING: one step of the main loop (41_encoder_loop.md R134). All uses of `cur` are its value at the start of the
step; the scratch holds `no value` afterwards (10_state.md R25), or is untouched if the step raises (DEDUCED, log entry 20). -/
def mainLoop (b : Byte) (s : State) : Host.Outcome State Fault Refusal :=
  match probe s.table (readCur s) b with
  | .overflow => .next (raiseProbeOverflow (readCur s) b s)
  | .hit _ _ e => .next (forgetScratch { s with cur := some e.code })
  | .miss idx _ =>
    andThen (emit (readCur s) s) fun s1 =>
      andThen (learn idx (readCur s) b s1) fun s2 => .next (forgetScratch { s2 with cur := some (zext12 b) })

/-- BYTE b (41_encoder_loop.md R131, R133, R134). -/
def execByte (b : Byte) (s : State) : Host.Outcome State Fault Refusal :=
  whenHealthy s <|
    match s.state with
    | .start => .next (firstByte b s)
    | .running => mainLoop b s
    | .flushing => .next (raiseProtocol (byteWord b) s)
    | .done => .next (raiseProtocol (byteWord b) s)

/-- The end of a run: EMIT(MAX_VALUE), FLUSHING, FLUSH, DONE (41_encoder_loop.md R135). -/
def finishRun (s : State) : Host.Outcome State Fault Refusal :=
  andThen (emit eosCode s) fun s1 =>
    .next { flush { s1 with state := .flushing } with state := .done }

/-- END (41_encoder_loop.md R135; what DONE keeps: log entry 17): legal in START and RUNNING; an empty input gives the end-of-stream code alone
(90_conflicts.md C1). -/
def execEndOfInput (s : State) : Host.Outcome State Fault Refusal :=
  whenHealthy s <|
    match s.state with
    | .start => finishRun s
    | .running => andThen (emit (readCur s) s) finishRun
    | .flushing => .next (raiseProtocol endWord s)
    | .done => .next (raiseProtocol endWord s)

/-- ABORT r (41_encoder_loop.md R136): legal in every state, its whole effect is `IO_FAIL`. -/
def execAbort (r : Byte) (s : State) : Host.Outcome State Fault Refusal :=
  whenHealthy s (.next (raise .ioFail (zext16 (abortWord r)) s))

end Sys2Proof.Machine
end

