-- ==== Sys2Proof/Machine/Dispatch.lean ====
section
/-! DEFINITION. The dispatch: one arm per constructor of Instr, in the order of spec/opcode_table.json. -/

namespace Sys2Proof.Machine

/-- One direct call of its meaning per instruction. -/
def exec (i : Instr) (s : State) : Host.Outcome State Fault Refusal :=
  match i with
  | .init => Sys2Proof.Machine.execInit s
  | .byte b => Sys2Proof.Machine.execByte b s
  | .endOfInput => Sys2Proof.Machine.execEndOfInput s
  | .abort r => Sys2Proof.Machine.execAbort r s
  | .lit b => Sys2Proof.Machine.execLit b s
  | .str c => Sys2Proof.Machine.execStr c s
  | .eos => Sys2Proof.Machine.execEos s
  | .hash p b => Sys2Proof.Machine.execHash p b s
  | .offset idx0 => Sys2Proof.Machine.execOffset idx0 s
  | .probe p b => Sys2Proof.Machine.execProbe p b s
  | .insert idx p b c => Sys2Proof.Machine.execInsert idx p b c s
  | .emit c => Sys2Proof.Machine.execEmit c s
  | .flush => Sys2Proof.Machine.execFlush s

end Sys2Proof.Machine
end

