-- ==== Sys2Proof/Machine/Port.lean ====
section
/-! DEFINITION. The command port: what one host action does to the core (10_state.md R34; 30_encoding.md R72, R80), and how a
word is offered at it. -/

namespace Sys2Proof.Machine

/-- The host's action in this step and the state without it; none when the host does nothing. -/
def nextAction (s : State) : Option (HostAction × State) :=
  match s.input with
  | [] => none
  | a :: rest => some (a, { s with input := rest })

/-- A reserved command word that is accepted raises `PROTOCOL` and changes nothing else (30_encoding.md R72). -/
def rejectReserved (w : CmdWord) (s : State) : Host.Outcome State Fault Refusal :=
  whenHealthy s (.next (raiseProtocol w s))

/-- One command word presented to the core: decoded and executed (00_scope.md R8). -/
def acceptCommand (w : CmdWord) (s : State) : Host.Outcome State Fault Refusal :=
  match decode w with
  | .command i => exec i s
  | .reservedInit _ => rejectReserved w s
  | .reservedEnd _ => rejectReserved w s

/-- One step: the host's next action is taken. Without one the core holds its state (60_exceptions.md R203). A
command a faulted core does not accept is withdrawn (DESIGN CHOICE, log entry 7). -/
def takeAction (s : State) : Host.Outcome State Fault Refusal :=
  match nextAction s with
  | none => .next s
  | some (.reset, s') => .next (applyReset s')
  | some (.command w, s') => acceptCommand w s'

/-- The pseudo-command STREAM: one BYTE per byte, then END (30_encoding.md R80). -/
def streamActions (bs : List Byte) : List HostAction :=
  bs.map (fun b => .command (byteWord b)) ++ [.command endWord]

/-- An opcode-table word offered as the next command. The port has ten wires, so a longer word cannot be offered and changes
nothing (DESIGN CHOICE, log entry 12, safe). -/
def offerWord (nbits w : Nat) (s : State) : State :=
  if nbits ≠ 12 ∧ w < 1024 then { s with input := .command (BitVec.ofNat 10 w) :: s.input } else s

end Sys2Proof.Machine
end

