-- ==== Sys2Proof/Machine/Step.lean ====
section
/-! DEFINITION. One step of the machine, and the state that presents a given word to the next step. -/

namespace Sys2Proof.Machine

/-- One step (00_scope.md R8). -/
def step (s : State) : Host.Outcome State Fault Refusal := takeAction s

/-- The state whose next step is offered this word (log entries 6 and 12). -/
def State.withFetchWord (s : State) (nbits w : Nat) : State := offerWord nbits w s

end Sys2Proof.Machine
end

