-- ==== Sys2Proof/Safety.lean ====
section
/-! DEFINITION. The terms claims are stated in: the invariant of every reachable state (10_state.md R37; 42_bit_packer.md R174),
which commands the protocol forbids where (41_encoder_loop.md R131), the bits of a stream (20_memory.md R50), the string of a
code (41_encoder_loop.md R138), the map-based encoder (R144), and a completed run (70_reset_and_hazards.md R229). -/

namespace Sys2Proof.Machine

/-- The codes of the occupied slots, in slot order. -/
def codesHeld (m : Memory) : List Nat := m.map fun x => x.2.code.toNat

/-- The slot at which PROBE(p, b) hits. -/
def hitSlot (t : Memory) (p : Code) (b : Byte) : Option Nat :=
  match probe t p b with
  | .hit idx _ _ => some idx
  | .miss _ _ => none
  | .overflow => none

/-- The invariant of the core between steps. -/
structure Inv (s : State) : Prop where
  /-- The table is in canonical form (20_memory.md R57). -/
  tableWf : s.table.wf
  /-- I-a of 10_state.md R37. -/
  nextRange : Config.firstCode ≤ s.next.toNat
  /-- I-b of R37: the codes held are `256, ..., next − 1`, each once. -/
  codes : (codesHeld s.table).Perm (List.range' Config.firstCode (s.next.toNat - Config.firstCode))
  /-- I-c of R37: an entry's prefix is a literal or an older entry. -/
  olderPrefix : ∀ x ∈ s.table, x.2.pre.toNat < x.2.code.toNat
  /-- The hit invariant (40_dictionary.md R107): every stored pair is found where it is stored. -/
  found : ∀ x ∈ s.table, hitSlot s.table x.2.pre x.2.byte = some x.1
  /-- I-d of R37: `cnt` is 0 or 4 between steps. -/
  cntCases : s.cnt = 0#5 ∨ s.cnt = 4#5
  /-- I-d of R37 and P-b of 42_bit_packer.md R174: `acc[31 − cnt : 0] = 0`. -/
  accClear : s.acc <<< s.cnt.toNat = 0#32
  /-- I-e of R37, first half. -/
  startFresh : s.state = .start → s.cur = none ∧ s.next = 256#12 ∧ s.cnt = 0#5 ∧ s.acc = 0#32 ∧ s.table = []
  /-- I-e of R37, second half: `cur` is a literal or the code of an entry. -/
  runningCur : s.state = .running → ∃ c, s.cur = some c ∧ c.toNat < s.next.toNat
  /-- I-f of R37. -/
  doneDrained : s.state = .done → s.cnt = 0#5 ∧ s.acc = 0#32
  /-- I-g of R37. -/
  notFlushing : s.state ≠ .flushing
  /-- The probe scratch holds `no value` between steps (10_state.md R25). -/
  scratchEmpty : s.idx = none ∧ s.off = none ∧ s.n = none
  /-- `fault_info` is 0 while `fault = 0` (10_state.md R26). -/
  infoClear : s.fault = 0#2 → s.faultInfo = 0#16

/-- A state the core can reach: from reset, whatever the host does at its inputs (10_state.md R37). -/
def Reachable (s : State) : Prop :=
  ∃ (acts : List HostAction) (k : Nat), Sys2Proof.core.run k { State.reset with input := acts } = Host.Outcome.next s

/-- The PROTOCOL entries of the transition table (41_encoder_loop.md R131). -/
def protocolIn : Instr → Phase → Bool
  | .init, .running | .init, .flushing => true
  | .byte _, .flushing | .byte _, .done => true
  | .endOfInput, .flushing | .endOfInput, .done => true
  | _, _ => false

/-- The slot an instruction stores to, computed as its meaning computes it: BYTE on a miss while the code space lasts
(41_encoder_loop.md R134), and INSERT (40_dictionary.md R105). INIT, which empties the whole table, is not of this form. -/
def storedSlot (i : Instr) (s : State) : Option Nat :=
  match i with
  | .byte b =>
    if s.state = .running ∧ dictFull s = false then
      match probe s.table (readCur s) b with
      | .miss idx _ => some idx
      | .hit _ _ _ => none
      | .overflow => none
    else none
  | .insert idx _ _ _ => some idx.toNat
  | _ => none

/-- The slot inspected as number `k` of the walk of PROBE(p, b) (40_dictionary.md R104). -/
def walkSlot (p : Code) (b : Byte) (k : Nat) : Nat := (nextIndex (probeOffset (hashIndex p b)))^[k] (hashIndex p b)

/-- The occupied slot `i` of the table holds another pair than `(p, b)`. -/
def holdsOther (t : Memory) (p : Code) (b : Byte) (i : Nat) : Prop :=
  ∃ e, tableRead t i = some e ∧ ¬ (e.pre = p ∧ e.byte = b)

/-- The bits of a code, most significant first (20_memory.md R50). -/
def codeBits (c : Code) : List Bool := (List.range 12).map fun j => c.getLsbD (11 - j)

/-- The bits of a byte, most significant first (20_memory.md R50). -/
def byteBits (b : Byte) : List Bool := (List.range 8).map fun j => b.getLsbD (7 - j)

/-- The pending bits `acc[31 : 32 − cnt]`, oldest first (10_state.md R23). -/
def pendingBits (s : State) : List Bool := (List.range s.cnt.toNat).map fun j => s.acc.getLsbD (31 - j)

/-- A stretch of the trace that is bytes only. -/
def byteEvents (bs : List Byte) : List OutEvent := bs.map .outByte

/-- `str(c)`, the string of a code, following at most `fuel` prefixes (41_encoder_loop.md R138). -/
def codeStringFuel (t : Memory) : (fuel : Nat) → Code → List Byte
  | 0, _ => []
  | fuel + 1, c =>
    if c.toNat < Config.firstCode then [c.extractLsb' 0 8]
    else
      match t.find? fun x => x.2.code == c with
      | some x => codeStringFuel t fuel x.2.pre ++ [x.2.byte]
      | none => []

/-- `str(c)` (41_encoder_loop.md R138). Prefixes are older codes, so a chain is shorter than the code space. -/
def codeString (t : Memory) (c : Code) : List Byte := codeStringFuel t (Config.maxValue + 1) c

/-- The main loop over a finite map from pairs to codes in place of the hash table (41_encoder_loop.md R144): the codes emitted
from a pending code `cur` on, the final pending one included. -/
def mapLoop (dict : List ((Code × Byte) × Code)) (nextCode : Nat) (cur : Code) : List Byte → List Code
  | [] => [cur]
  | b :: bs =>
    match dict.lookup (cur, b) with
    | some c => mapLoop dict nextCode c bs
    | none =>
      if nextCode ≤ Config.maxCode then
        cur :: mapLoop (((cur, b), BitVec.ofNat 12 nextCode) :: dict) (nextCode + 1) (zext12 b) bs
      else cur :: mapLoop dict nextCode (zext12 b) bs

/-- `codes(x)` of 41_encoder_loop.md R144: the codes a run emits before the end-of-stream code. -/
def mapCodes : List Byte → List Code
  | [] => []
  | b :: bs => mapLoop [] Config.firstCode (zext12 b) bs

/-- A run has completed (70_reset_and_hazards.md R229). -/
def completed (s : State) : Prop := s.state = .done ∧ s.fault = 0#2 ∧ s.out.getLast? = some .outPersist

end Sys2Proof.Machine
end

