-- ==== Sys2Proof/Certificates/Slice0/Obligations.lean ====
section
/-! DEFINITION. The statements for the provers, one `def Obligations.<Name> : Prop` each, from the numbered rules of spec/. -/

open Sys2Proof Sys2Proof.Machine

/-! ### Configuration and encodings -/

/-- 00_scope.md R5, R6: the reference configuration meets the constraints, the constants are its own, and the configuration of
vector V-D7, which breaks K3, is no configuration of this hardware. -/
def Obligations.ReferenceConfigurationIsLegal : Prop :=
  Config.reference.legal ∧ Config.reference.maxValue = Config.maxValue ∧ Config.reference.maxCode = Config.maxCode ∧
  Config.reference.dictCapacity = Config.dictCapacity ∧ Config.dictCapacity = 3839 ∧
  Config.reference.bits = Config.bits ∧ Config.reference.tableSize = Config.tableSize ∧
  Config.reference.hashShift = Config.hashShift ∧ Config.reference.accWidth = Config.accWidth ∧
  ¬ Config.Params.legal { bits := 9, tableSize := 7, hashShift := 4, accWidth := 32 }

/-- 30_encoding.md R71: "A word `w` is command `m` when `w & mask = match`", with the operand in `data`. -/
def Obligations.CommandWordsDecodeByMaskAndMatch : Prop :=
  ∀ w : CmdWord,
    (decode w = .command .init ↔ w &&& 0x3FF#10 = 0x000#10) ∧
    (∀ b : Byte, decode w = .command (.byte b) ↔ w &&& 0x300#10 = 0x100#10 ∧ w.setWidth 8 = b) ∧
    (decode w = .command .endOfInput ↔ w &&& 0x3FF#10 = 0x200#10) ∧
    (∀ r : Byte, decode w = .command (.abort r) ↔ w &&& 0x300#10 = 0x300#10 ∧ w.setWidth 8 = r)

/-- 30_encoding.md R71, R73: words written out from the tables decode to the instructions they stand for (sanity). -/
def Obligations.SampleWordsDecode : Prop :=
  decode 0b0000000000#10 = .command .init ∧ decode 0b0101000001#10 = .command (.byte 0x41#8) ∧
  decode 0b1000000000#10 = .command .endOfInput ∧ decode 0b1100000001#10 = .command (.abort 0x01#8) ∧
  decode 0b1000000101#10 = .reservedEnd 0x05#8 ∧ decode 0b0000000001#10 = .reservedInit 0x01#8 ∧
  decodeCode 0b000001000001#12 = .lit 0x41#8 ∧ decodeCode 0b000100000000#12 = .str 0x100#12 ∧
  decodeCode 0b111111111111#12 = .eos

/-- 30_encoding.md R70 to R73: decoding an encoded well-formed instruction gives it back, for every command and every output
code at every operand; and whatever bits decode to an instruction are that instruction's encoding, which is well formed. -/
def Obligations.DecodeInvertsEncode : Prop :=
  (∀ i : Instr, i.wellFormed = true → i.format ≠ .internal → decodeEncoding (encode i) = some i) ∧
  (∀ (e : Encoding) (i : Instr), decodeEncoding e = some i → encode i = e ∧ i.wellFormed = true)

/-- 10_state.md R29, 30_encoding.md R75: the 33-bit slot `{valid[32], prefix[31:20], byte[19:12], code[11:0]}`. -/
def Obligations.SlotLayoutRoundTrips : Prop :=
  (∀ e : Entry, (encodeSlot e).extractLsb' 32 1 = 1#1 ∧ (encodeSlot e).extractLsb' 20 12 = e.pre ∧
    (encodeSlot e).extractLsb' 12 8 = e.byte ∧ (encodeSlot e).extractLsb' 0 12 = e.code ∧
    decodeSlot (encodeSlot e) = some e) ∧
  (∀ w : BitVec 33, w.extractLsb' 32 1 = 0#1 → decodeSlot w = none)

/-! ### The step -/

/-- 00_scope.md R8: a command word that decodes is executed, on the state from which the word has been taken. -/
def Obligations.StepRunsDecodedCommand : Prop :=
  ∀ (s : State) (w : CmdWord) (rest : List HostAction) (i : Instr),
    s.input = .command w :: rest → decode w = .command i → step s = exec i { s with input := rest }

/-- 60_exceptions.md R203: when no command is offered the core holds its state. -/
def Obligations.IdleStepHoldsState : Prop :=
  ∀ s : State, s.input = [] → step s = .next s

/-- 10_state.md R36: the values after reset, and after an INIT that is legal (INIT keeps the fault registers and the trace). -/
def Obligations.ResetAndInitLeaveFreshState : Prop :=
  (∀ (s : State) (rest : List HostAction), s.input = .reset :: rest →
    ∃ t, step s = .next t ∧ t.state = .start ∧ t.cur = none ∧ t.next = 256#12 ∧ t.acc = 0#32 ∧ t.cnt = 0#5 ∧
      (∀ a, tableRead t.table a = none) ∧ t.fault = 0#2 ∧ t.faultInfo = 0#16 ∧
      t.idx = none ∧ t.off = none ∧ t.n = none ∧ t.out = [] ∧ t.input = rest) ∧
  (∀ s : State, s.fault = 0#2 → s.state = .start ∨ s.state = .done →
    ∃ t, exec .init s = .next t ∧ t.state = .start ∧ t.cur = none ∧ t.next = 256#12 ∧ t.acc = 0#32 ∧ t.cnt = 0#5 ∧
      (∀ a, tableRead t.table a = none) ∧ t.fault = s.fault ∧ t.faultInfo = s.faultInfo ∧
      t.idx = none ∧ t.off = none ∧ t.n = none ∧ t.out = s.out ∧ t.input = s.input)

/-- 41_encoder_loop.md R142: while `fault != 0` a command offered changes nothing and produces nothing, and a step that ends
unfaulted is a reset. -/
def Obligations.FaultedCoreAcceptsNothing : Prop :=
  ∀ s : State, s.fault ≠ 0#2 →
    cmdReady s = false ∧
    (∀ (w : CmdWord) (rest : List HostAction), s.input = .command w :: rest →
      ∃ t, step s = .next t ∧ { t with input := s.input } = s) ∧
    (∀ t, step s = .next t → t.fault = 0#2 → ∃ rest, s.input = .reset :: rest)

/-- 30_encoding.md R72: a reserved word raises PROTOCOL with the word and changes nothing else; every BYTE and every ABORT word
is legal; a well-formed command that is not legal in the current state raises the same fault. -/
def Obligations.ReservedWordsRaiseProtocol : Prop :=
  (∀ (s : State) (w : CmdWord) (rest : List HostAction), s.fault = 0#2 → s.input = .command w :: rest →
    (0x001#10 ≤ w ∧ w ≤ 0x0FF#10) ∨ (0x201#10 ≤ w ∧ w ≤ 0x2FF#10) →
    step s = .next { s with input := rest, fault := 2#2, faultInfo := w.setWidth 16 }) ∧
  (∀ b : Byte, decode (0x100#10 ||| b.setWidth 10) = .command (.byte b) ∧
    decode (0x300#10 ||| b.setWidth 10) = .command (.abort b)) ∧
  (∀ (s : State) (w : CmdWord) (rest : List HostAction) (i : Instr), s.fault = 0#2 → s.input = .command w :: rest →
    decode w = .command i → protocolIn i s.state = true →
    step s = .next { s with input := rest, fault := 2#2, faultInfo := w.setWidth 16 })

/-! ### Commands -/

/-- 41_encoder_loop.md R131: the transition table, with `fault = 0`: the entries PROTOCOL and what they do, and for each legal
command the state it leaves. -/
def Obligations.TransitionTable : Prop :=
  (∀ st : Phase,
    (protocolIn .init st = true ↔ st = .running ∨ st = .flushing) ∧
    (∀ b, protocolIn (.byte b) st = true ↔ st = .flushing ∨ st = .done) ∧
    (protocolIn .endOfInput st = true ↔ st = .flushing ∨ st = .done) ∧
    (∀ r, protocolIn (.abort r) st = false)) ∧
  ∀ s : State, s.fault = 0#2 →
    (∀ (i : Instr) (w : CmdWord), protocolIn i s.state = true → encode i = .command w →
      exec i s = .next { s with fault := 2#2, faultInfo := w.setWidth 16 }) ∧
    (s.state = .start ∨ s.state = .done → ∃ t, exec .init s = .next t ∧ t.state = .start ∧ t.fault = 0#2) ∧
    (∀ b, s.state = .start → ∃ t, exec (.byte b) s = .next t ∧ t.state = .running ∧ t.fault = 0#2) ∧
    (∀ b t, s.state = .running → exec (.byte b) s = .next t →
      t.state = .running ∧ (t.fault = 0#2 ∨ t.fault = 3#2 ∧ probe s.table (readCur s) b = .overflow)) ∧
    (∀ t, s.state = .start ∨ s.state = .running → exec .endOfInput s = .next t → t.state = .done ∧ t.fault = 0#2) ∧
    (∀ r, ∃ t, exec (.abort r) s = .next t ∧ t.state = s.state ∧ t.fault = 1#2)

/-- 41_encoder_loop.md R133: the first byte of the stream. -/
def Obligations.FirstByteBecomesCurrentCode : Prop :=
  ∀ (s : State) (b : Byte), s.fault = 0#2 → s.state = .start →
    exec (.byte b) s = .next { s with cur := some (b.setWidth 12), state := .running }

/-- 41_encoder_loop.md R134: BYTE in RUNNING: a hit takes the entry's code, a miss emits `cur` (as EMIT does), inserts unless the
code space is exhausted, and takes the byte, an exhausted probe raises PROBE_OVERFLOW and writes nothing else. The bytes of
42_bit_packer.md R171 (b) are written out for the two values `cnt` takes between steps. -/
def Obligations.ByteStepInRunning : Prop :=
  ∀ (s : State) (b : Byte) (c : Code), s.fault = 0#2 → s.state = .running → s.cur = some c →
    (∀ idx n e, probe s.table c b = .hit idx n e → tableRead s.table idx = some e ∧
      exec (.byte b) s = .next { s with cur := some e.code, idx := none, off := none, n := none }) ∧
    (∀ idx n, probe s.table c b = .miss idx n →
      let t := if s.next.toNat ≤ 4094
        then { s with cur := some (b.setWidth 12), table := tableWrite s.table idx (some ⟨c, b, s.next⟩),
                      next := s.next + 1#12, idx := none, off := none, n := none }
        else { s with cur := some (b.setWidth 12), idx := none, off := none, n := none }
      (∀ u, exec (.emit c) s = .next u →
        exec (.byte b) s = .next { t with acc := u.acc, cnt := u.cnt, out := u.out }) ∧
      (s.cnt = 0#5 → s.acc = 0#32 → exec (.byte b) s = .next { t with
        acc := (c.extractLsb' 0 4 : BitVec 4) ++ 0#28, cnt := 4#5, out := s.out ++ [.outByte (c.extractLsb' 4 8)] }) ∧
      (s.cnt = 4#5 → s.acc <<< 4 = 0#32 → exec (.byte b) s = .next { t with
        acc := 0#32, cnt := 0#5,
        out := s.out ++ [.outByte ((s.acc.extractLsb' 28 4 : BitVec 4) ++ (c.extractLsb' 8 4 : BitVec 4)),
                         .outByte (c.extractLsb' 0 8)] })) ∧
    (probe s.table c b = .overflow →
      exec (.byte b) s = .next { s with fault := 3#2, faultInfo := BitVec.ofNat 16 (hashIndex c b) })

/-- 41_encoder_loop.md R135: END: from START the end-of-stream code alone, from RUNNING the pending code and the end-of-stream code
(as EMIT does), then FLUSH, and DONE. PROTOCOL elsewhere. The bytes are written out for the bit buffers that 10_state.md R37
allows. -/
def Obligations.EndEmitsPendingAndSentinel : Prop :=
  ∀ s : State, s.fault = 0#2 →
    (∀ u v, s.state = .start → exec (.emit 4095#12) s = .next u → exec .flush u = .next v →
      exec .endOfInput s = .next { v with state := .done }) ∧
    (∀ c u v w, s.state = .running → s.cur = some c → exec (.emit c) s = .next u → exec (.emit 4095#12) u = .next v →
      exec .flush v = .next w → exec .endOfInput s = .next { w with state := .done }) ∧
    (s.state = .start → s.cnt = 0#5 → s.acc = 0#32 →
      exec .endOfInput s = .next { s with
        state := .done, acc := 0#32, cnt := 0#5,
        out := s.out ++ [.outByte 0xFF#8, .outByte 0xF0#8, .outPersist] }) ∧
    (∀ c, s.state = .running → s.cur = some c → s.cnt = 0#5 → s.acc = 0#32 →
      exec .endOfInput s = .next { s with
        state := .done, acc := 0#32, cnt := 0#5,
        out := s.out ++ [.outByte (c.extractLsb' 4 8), .outByte ((c.extractLsb' 0 4 : BitVec 4) ++ 0xF#4), .outByte 0xFF#8,
                         .outPersist] }) ∧
    (∀ c, s.state = .running → s.cur = some c → s.cnt = 4#5 → s.acc <<< 4 = 0#32 →
      exec .endOfInput s = .next { s with
        state := .done, acc := 0#32, cnt := 0#5,
        out := s.out ++ [.outByte ((s.acc.extractLsb' 28 4 : BitVec 4) ++ (c.extractLsb' 8 4 : BitVec 4)),
                         .outByte (c.extractLsb' 0 8), .outByte 0xFF#8, .outByte 0xF0#8, .outPersist] }) ∧
    (s.state = .done ∨ s.state = .flushing → exec .endOfInput s = .next { s with fault := 2#2, faultInfo := 0x0200#16 })

/-- 41_encoder_loop.md R136: ABORT raises IO_FAIL with the word, in every state, and writes nothing but the fault registers. -/
def Obligations.AbortRecordsHostFailure : Prop :=
  ∀ (s : State) (r : Byte), s.fault = 0#2 →
    exec (.abort r) s = .next { s with fault := 1#2, faultInfo := 0x0300#16 ||| r.setWidth 16 }

/-- 41_encoder_loop.md R137: once `next > MAX_CODE` the dictionary stops growing and encoding goes on: no fault, no insertion,
hits still extend `cur`, a miss still emits. The premise on the probe is 40_dictionary.md R104's: it holds in every reachable
state (`StepNeverStopsNorOverflows`). -/
def Obligations.ExhaustedDictionaryKeepsEncoding : Prop :=
  ∀ (s : State) (b : Byte) (c : Code), s.fault = 0#2 → s.state = .running → s.cur = some c → s.cnt.toNat ≤ 7 →
    4094 < s.next.toNat → probe s.table c b ≠ .overflow →
    ∃ t, exec (.byte b) s = .next t ∧ t.fault = 0#2 ∧ t.table = s.table ∧ t.next = s.next ∧ t.state = .running ∧
      ((∃ idx n e, probe s.table c b = .hit idx n e ∧ t.cur = some e.code ∧ t.out = s.out) ∨
       ((∃ idx n, probe s.table c b = .miss idx n) ∧ t.cur = some (b.setWidth 12) ∧
         ∃ bs, bs ≠ [] ∧ t.out = s.out ++ byteEvents bs))

/-! ### Faults -/

/-- 60_exceptions.md R194: `raise` records the first cause only and writes nothing else; afterwards no command is ready to be
accepted. -/
def Obligations.RaiseRecordsFirstCause : Prop :=
  ∀ (c : Cause) (info : BitVec 16) (s : State),
    (s.fault = 0#2 → raise c info s = { s with fault := (match c with | .ioFail => 1#2 | .protocol => 2#2 | .probeOverflow => 3#2),
                                               faultInfo := info }) ∧
    (s.fault ≠ 0#2 → raise c info s = s) ∧ cmdReady (raise c info s) = false

/-- 60_exceptions.md R198: the faulting step writes nothing but `fault` and `fault_info`. -/
def Obligations.FaultingStepWritesOnlyFaultRegisters : Prop :=
  ∀ (i : Instr) (s t : State), s.fault = 0#2 → exec i s = .next t → t.fault ≠ 0#2 →
    t = { s with fault := t.fault, faultInfo := t.faultInfo }

/-- 60_exceptions.md R191: which instruction raises which cause, when, and what `fault_info` records. -/
def Obligations.CauseCodesAndInfo : Prop :=
  ∀ (i : Instr) (s t : State), s.fault = 0#2 → exec i s = .next t →
    (t.fault = 1#2 ↔ ∃ r, i = .abort r) ∧
    (∀ r, i = .abort r → t.faultInfo = 0x0300#16 ||| r.setWidth 16) ∧
    (t.fault = 2#2 ↔ protocolIn i s.state = true) ∧
    (∀ w, protocolIn i s.state = true → encode i = .command w → t.faultInfo = w.setWidth 16) ∧
    (t.fault = 3#2 ↔ (∃ b, i = .byte b ∧ s.state = .running ∧ probe s.table (readCur s) b = .overflow) ∨
      (∃ p b, i = .probe p b ∧ probe s.table p b = .overflow)) ∧
    (∀ b, t.fault = 3#2 → i = .byte b → t.faultInfo = BitVec.ofNat 16 (hashIndex (readCur s) b)) ∧
    (∀ p b, t.fault = 3#2 → i = .probe p b → t.faultInfo = BitVec.ofNat 16 (hashIndex p b)) ∧
    (t.fault = 0#2 → t.faultInfo = s.faultInfo)

/-! ### The dictionary table -/

/-- 40_dictionary.md R101: the hash, its range, its zero and its low four bits. -/
def Obligations.HashFormula : Prop :=
  ∀ (p : Code) (b : Byte),
    hashIndex p b = ((b.toNat * 16) ^^^ p.toNat) % 5021 ∧ hashIndex p b = (b.toNat * 16) ^^^ p.toNat ∧ hashIndex p b ≤ 4095 ∧
    (hashIndex p b = 0 ↔ p.toNat = b.toNat * 16) ∧ hashIndex p b % 16 = p.toNat % 16

/-- 40_dictionary.md R102: the probe step, and its range. -/
def Obligations.OffsetFormula : Prop :=
  probeOffset 0 = 1 ∧ (∀ i, i ≠ 0 → i < 5021 → probeOffset i = 5021 - i) ∧ (∀ i, i < 5021 → 1 ≤ probeOffset i ∧ probeOffset i ≤ 5020)

/-- 40_dictionary.md R104: the walk in closed form, the distinctness of its first `TABLE_SIZE` slots, that PROBE returns
whenever the table has an empty slot or holds the pair, and so always in a state that meets the invariant of 10_state.md R37. -/
def Obligations.ProbeWalkVisitsEverySlotOnce : Prop :=
  ∀ (p : Code) (b : Byte),
    (∀ k, hashIndex p b ≠ 0 → walkSlot p b k = ((k + 1) * hashIndex p b) % 5021) ∧
    (∀ k, hashIndex p b = 0 → ((walkSlot p b k : Nat) : Int) = (-(k : Int)) % 5021) ∧
    (∀ i, i < 5021 → ∃ k, k < 5021 ∧ walkSlot p b k = i) ∧
    (∀ j k, j < 5021 → k < 5021 → walkSlot p b j = walkSlot p b k → j = k) ∧
    (∀ t : Memory, t.wf → (∃ i, i < 5021 ∧ tableRead t i = none) → probe t p b ≠ .overflow) ∧
    (∀ t : Memory, t.wf → (∃ x ∈ t, x.2.pre = p ∧ x.2.byte = b) → probe t p b ≠ .overflow) ∧
    (∀ s : State, Inv s → probe s.table p b ≠ .overflow)

/-- 40_dictionary.md R100, R103: PROBE returns the slot that holds the pair or the first empty slot of its walk, whichever comes
first, and overflows exactly when `TABLE_SIZE` slots hold other pairs. -/
def Obligations.ProbeFindsPairOrFirstEmptySlot : Prop :=
  ∀ (t : Memory) (p : Code) (b : Byte),
    (∀ idx n e, probe t p b = .hit idx n e ↔
      n < 5021 ∧ idx = walkSlot p b n ∧ tableRead t idx = some e ∧ e.pre = p ∧ e.byte = b ∧
      ∀ k, k < n → holdsOther t p b (walkSlot p b k)) ∧
    (∀ idx n, probe t p b = .miss idx n ↔
      n < 5021 ∧ idx = walkSlot p b n ∧ tableRead t idx = none ∧ ∀ k, k < n → holdsOther t p b (walkSlot p b k)) ∧
    (probe t p b = .overflow ↔ ∀ k, k < 5021 → holdsOther t p b (walkSlot p b k))

/-- 40_dictionary.md R105: after INSERT into the empty slot a PROBE returned, the slot holds the entry, every other slot is as
before, PROBE of the pair hits there, and every pair that was found is found where it was. -/
def Obligations.InsertMakesPairFound : Prop :=
  ∀ (s : State) (p : Code) (b : Byte) (c : Code) (i : Index) (n : Nat),
    s.fault = 0#2 → s.table.wf → probe s.table p b = .miss i.toNat n →
    ∃ t, exec (.insert i p b c) s = .next { s with table := t } ∧ tableRead t i.toNat = some ⟨p, b, c⟩ ∧
      (∀ j, j ≠ i.toNat → tableRead t j = tableRead s.table j) ∧
      (∃ m, probe t p b = .hit i.toNat m ⟨p, b, c⟩) ∧
      (∀ q d j m e, probe s.table q d = .hit j m e → probe t q d = .hit j m e)

/-- 40_dictionary.md R107: a pair that is stored is found where it is stored, a pair that is not stored is never a hit, and a
step of the same run keeps every stored pair in its slot with its code. -/
def Obligations.StoredPairsAreFound : Prop :=
  ∀ s : State, Inv s →
    (∀ x ∈ s.table, ∃ n, probe s.table x.2.pre x.2.byte = .hit x.1 n x.2) ∧
    (∀ p b idx n e, probe s.table p b = .hit idx n e → (idx, e) ∈ s.table ∧ e.pre = p ∧ e.byte = b) ∧
    (∀ t, step s = .next t → t.state ≠ .start → ∀ x ∈ s.table, ∃ n, probe t.table x.2.pre x.2.byte = .hit x.1 n x.2)

/-- 40_dictionary.md R101, R102, R103, R105 as instructions (log entry 10, the model's choice: the result of an internal function
is in the scratch register the calling rule assigns it to): each completes, in the state its rule gives. -/
def Obligations.InternalTableOperationsComplete : Prop :=
  ∀ s : State, s.fault = 0#2 →
    (∀ p b, exec (.hash p b) s = .next { s with idx := some (BitVec.ofNat 13 (hashIndex p b)) }) ∧
    (∀ i : Index, i.toNat < 5021 →
      exec (.offset i) s = .next { s with off := some (BitVec.ofNat 13 (if i.toNat = 0 then 1 else 5021 - i.toNat)) }) ∧
    (∀ p b idx n, (probe s.table p b = .miss idx n ∨ ∃ e, probe s.table p b = .hit idx n e) →
      exec (.probe p b) s = .next { s with idx := some (BitVec.ofNat 13 idx), off := some (BitVec.ofNat 13 (probeOffset (hashIndex p b))),
                                           n := some (BitVec.ofNat 13 n) }) ∧
    (∀ p b, probe s.table p b = .overflow →
      exec (.probe p b) s = .next { s with fault := 3#2, faultInfo := BitVec.ofNat 16 (hashIndex p b) }) ∧
    (∀ (i : Index) p b c, i.toNat < 5021 →
      exec (.insert i p b c) s = .next { s with table := tableWrite s.table i.toNat (some ⟨p, b, c⟩) })

/-- 10_state.md R32: the flag `hit` after a PROBE tells a hit from a miss, and `dict_full`, `done`, `faulted` are the functions
of the state the rule gives. -/
def Obligations.FlagsAreFunctionsOfState : Prop :=
  (∀ (s t : State) (p : Code) (b : Byte), s.fault = 0#2 → exec (.probe p b) s = .next t → t.fault = 0#2 →
    (hit t = true ↔ ∃ idx n e, probe s.table p b = .hit idx n e)) ∧
  (∀ s : State, (dictFull s = true ↔ s.next = 4095#12) ∧ (isDone s = true ↔ s.state = .done) ∧
    (isFaulted s = true ↔ s.fault ≠ 0#2))

/-! ### The bit packer -/

/-- 42_bit_packer.md R171: EMIT appends the 12 bits of the code, most significant first, after the pending bits, outputs
`floor((cnt + 12) / 8)` bytes and leaves fewer than 8 bits pending, with zeros below them. -/
def Obligations.EmitAppendsCodeBits : Prop :=
  ∀ (s : State) (c : Code), s.fault = 0#2 → s.cnt.toNat ≤ 7 → s.acc <<< s.cnt.toNat = 0#32 →
    ∃ t bs, exec (.emit c) s = .next t ∧ t = { s with acc := t.acc, cnt := t.cnt, out := s.out ++ byteEvents bs } ∧
      bs.length = (s.cnt.toNat + 12) / 8 ∧ t.cnt.toNat ≤ 7 ∧ t.acc <<< t.cnt.toNat = 0#32 ∧
      bs.flatMap byteBits ++ pendingBits t = pendingBits s ++ codeBits c

/-- 42_bit_packer.md R173: FLUSH writes the pending bits, padded with zeros, as one byte if there are any, then the persist
marker; nothing is pending afterwards. -/
def Obligations.FlushWritesPartialByte : Prop :=
  ∀ s : State, s.fault = 0#2 → s.cnt.toNat ≤ 7 → s.acc <<< s.cnt.toNat = 0#32 →
    (s.cnt.toNat = 0 → exec .flush s = .next { s with acc := 0#32, cnt := 0#5, out := s.out ++ [.outPersist] }) ∧
    (0 < s.cnt.toNat → ∃ b, exec .flush s = .next { s with
        acc := 0#32, cnt := 0#5, out := s.out ++ [.outByte b, .outPersist] } ∧
      byteBits b = pendingBits s ++ List.replicate (8 - s.cnt.toNat) false)

/-- 30_encoding.md R73 (log entry 9, the model's choice: the effect of an output code is its EMIT): LIT, STR and EOS complete,
and append the 12 bits of their encoding after the pending bits. -/
def Obligations.OutputCodesArePacked : Prop :=
  ∀ (i : Instr) (c : Code) (s : State), encode i = .code c → s.fault = 0#2 → s.cnt.toNat ≤ 7 →
    s.acc <<< s.cnt.toNat = 0#32 →
    ∃ t bs, exec i s = .next t ∧ t = { s with acc := t.acc, cnt := t.cnt, out := s.out ++ byteEvents bs } ∧
      bs.flatMap byteBits ++ pendingBits t = pendingBits s ++ codeBits c

/-! ### Stops and frames -/

/-- 20_memory.md R57, 93_implementation_defined.md U19, U21 (log entries 13, 14): where the model stops by name. -/
def Obligations.StopsByName : Prop :=
  ∀ s : State, s.fault = 0#2 →
    (∀ i : Index, 5021 ≤ i.toNat → exec (.offset i) s = .fault (.noSuchSlot i)) ∧
    (∀ (i : Index) p b c, 5021 ≤ i.toNat → exec (.insert i p b c) s = .fault (.noSuchSlot i)) ∧
    (∀ (i : Instr) (c : Code), encode i = .code c ∨ i = .emit c →
      (20 < s.cnt.toNat → exec i s = .refused (.negativeShift s.cnt)) ∧
      (s.cnt.toNat ≤ 20 → ∃ t, exec i s = .next t)) ∧
    (s.state = .start ∨ s.state = .running → 20 < s.cnt.toNat → exec .endOfInput s = .refused (.negativeShift s.cnt)) ∧
    (∀ b idx n, s.state = .running → probe s.table (readCur s) b = .miss idx n → 20 < s.cnt.toNat →
      exec (.byte b) s = .refused (.negativeShift s.cnt))

/-- The registers an internal operation or an output code leaves unchanged (40_dictionary.md R101, R102, R103, R105;
42_bit_packer.md R171, R173): HASH, OFFSET write one scratch register, PROBE the scratch or the fault registers, INSERT the
table, EMIT, FLUSH, LIT, STR, EOS the bit buffer and the trace. -/
def Obligations.InternalOperationFrames : Prop :=
  ∀ (i : Instr) (s t : State), exec i s = .next t →
    match i with
    | .hash _ _ => t = { s with idx := t.idx }
    | .offset _ => t = { s with off := t.off }
    | .probe _ _ => t = { s with idx := t.idx, off := t.off, n := t.n, fault := t.fault, faultInfo := t.faultInfo } ∧
        (t.fault ≠ s.fault → t.idx = s.idx ∧ t.off = s.off ∧ t.n = s.n)
    | .insert _ _ _ _ => t = { s with table := t.table }
    | .emit _ | .lit _ | .str _ | .eos | .flush => t = { s with acc := t.acc, cnt := t.cnt, out := t.out }
    | .init | .byte _ | .endOfInput | .abort _ => True

/-- The registers a command leaves unchanged (41_encoder_loop.md R132 to R136). BYTE writes `state` only from START, and a BYTE
whose probe hits changes `cur` and the scratch only; no command touches the host's input list. -/
def Obligations.CommandFrames : Prop :=
  ∀ (i : Instr) (s t : State), exec i s = .next t →
    match i with
    | .init => t = { s with state := t.state, cur := t.cur, next := t.next, acc := t.acc, cnt := t.cnt, table := t.table,
                            idx := t.idx, off := t.off, n := t.n, epoch := t.epoch, fault := t.fault,
                            faultInfo := t.faultInfo } ∧ (s.fault ≠ t.fault → t = { s with fault := t.fault, faultInfo := t.faultInfo })
    | .byte b => t = { s with state := t.state, cur := t.cur, next := t.next, acc := t.acc, cnt := t.cnt, table := t.table,
                              out := t.out, idx := t.idx, off := t.off, n := t.n, fault := t.fault, faultInfo := t.faultInfo } ∧
        (s.state ≠ .start → t.state = s.state) ∧
        (∀ idx n e, s.state = .running → probe s.table (readCur s) b = .hit idx n e →
          t = { s with cur := t.cur, idx := t.idx, off := t.off, n := t.n })
    | .endOfInput => t = { s with state := t.state, acc := t.acc, cnt := t.cnt, out := t.out, fault := t.fault,
                                  faultInfo := t.faultInfo }
    | .abort _ => t = { s with fault := t.fault, faultInfo := t.faultInfo }
    | _ => True

/-- 20_memory.md R54, R55: an instruction that gives a next state leaves every slot but the one it stores to as it was, and the
slot it stores to holds the entry written; only INIT, and only where it is legal, empties the table. -/
def Obligations.TableFrame : Prop :=
  ∀ (i : Instr) (s t : State), s.table.wf → exec i s = .next t →
    (i ≠ .init → ∀ a, storedSlot i s ≠ some a → tableRead t.table a = tableRead s.table a) ∧
    (i = .init → t.fault = 0#2 → ∀ a, tableRead t.table a = none) ∧
    (i = .init → t.fault ≠ 0#2 → t.table = s.table) ∧
    (∀ b a, i = .byte b → s.fault = 0#2 → storedSlot i s = some a →
      tableRead t.table a = some ⟨readCur s, b, s.next⟩) ∧
    (∀ j p b c, i = .insert j p b c → s.fault = 0#2 → tableRead t.table j.toNat = some ⟨p, b, c⟩)

/-- 20_memory.md R56, R59: output is never retracted; only END (and FLUSH itself) tells the sink to persist, once and last; and
in DONE no command produces an event. -/
def Obligations.OutputIsAppendOnly : Prop :=
  ∀ (i : Instr) (s t : State), exec i s = .next t →
    ∃ new, t.out = s.out ++ new ∧
      (.outPersist ∈ new → i = .endOfInput ∨ i = .flush) ∧
      (i = .endOfInput ∨ i = .flush → s.fault = 0#2 → t.fault = 0#2 → ∃ bs, new = byteEvents bs ++ [.outPersist]) ∧
      (s.state = .done → i.format = .cmd → new = []) ∧
      (s.fault ≠ 0#2 → new = [])

/-! ### Invariants and headline results -/

/-- The state after reset meets the invariant, whatever the host is going to do (10_state.md R36, R37). -/
def Obligations.ResetMeetsInvariant : Prop :=
  ∀ acts : List HostAction, Inv { State.reset with input := acts }

/-- Every step keeps the invariant (10_state.md R37; 42_bit_packer.md R174; 40_dictionary.md R107), from every state that meets
it. -/
def Obligations.StepKeepsInvariant : Prop :=
  ∀ s t : State, Inv s → step s = .next t → Inv t

/-- 10_state.md R37: I-a to I-g in every state reachable from reset. -/
def Obligations.ReachableStatesMeetR37 : Prop :=
  ∀ s : State, Reachable s →
    (256 ≤ s.next.toNat ∧ s.next.toNat ≤ 4095) ∧
    (s.table.length = s.next.toNat - 256 ∧ (∀ c, 256 ≤ c → c < s.next.toNat → ∃ x ∈ s.table, x.2.code.toNat = c) ∧
      (codesHeld s.table).Nodup ∧ (∀ x ∈ s.table, 256 ≤ x.2.code.toNat ∧ x.2.code.toNat < s.next.toNat) ∧
      s.table.length ≤ 3839 ∧ 1182 ≤ 5021 - s.table.length) ∧
    (∀ x ∈ s.table, x.2.pre.toNat ≤ 255 ∨ (256 ≤ x.2.pre.toNat ∧ x.2.pre.toNat < x.2.code.toNat)) ∧
    ((s.cnt.toNat = 0 ∨ s.cnt.toNat = 4) ∧ s.acc <<< s.cnt.toNat = 0#32) ∧
    (s.state = .start → s.cur = none ∧ s.next = 256#12 ∧ s.cnt = 0#5 ∧ s.acc = 0#32 ∧ s.table = []) ∧
    (s.state = .running → ∃ c, s.cur = some c ∧ (c.toNat ≤ 255 ∨ (256 ≤ c.toNat ∧ c.toNat < s.next.toNat))) ∧
    (s.state = .done → s.cnt = 0#5 ∧ s.acc = 0#32) ∧ s.state ≠ .flushing

/-- 40_dictionary.md R104, 60_exceptions.md R195: from a state that meets the invariant every step gives a next state, and none
raises PROBE_OVERFLOW. -/
def Obligations.StepNeverStopsNorOverflows : Prop :=
  ∀ s : State, Inv s → ∃ t, step s = .next t ∧ (s.fault ≠ 3#2 → t.fault ≠ 3#2)

/-- 20_memory.md R57: every instruction keeps the table in canonical form, in every state whose table is. -/
def Obligations.InstructionsKeepTableCanonical : Prop :=
  ∀ (i : Instr) (s t : State), s.table.wf → exec i s = .next t → t.table.wf

/-- 10_state.md R30: within a run entries are immutable and the table only grows, by at most one entry a step; only INIT and
reset empty slots; no two occupied slots hold one pair or one code; `next − 256` slots are occupied. -/
def Obligations.EntriesAreImmutable : Prop :=
  ∀ s t : State, Inv s → step s = .next t →
    (((∀ a e, tableRead s.table a = some e → tableRead t.table a = some e) ∧ t.table.length ≤ s.table.length + 1) ∨
      ((∀ a, tableRead t.table a = none) ∧ t.state = .start ∧
        ∃ rest, s.input = .reset :: rest ∨ s.input = .command initWord :: rest)) ∧
    (∀ a b e f, tableRead s.table a = some e → tableRead s.table b = some f →
      (e.pre = f.pre ∧ e.byte = f.byte) ∨ e.code = f.code → a = b) ∧
    s.table.length = s.next.toNat - 256

/-- 10_state.md R38: no rule reads `no value`. In a state that meets the invariant the step does not depend on which free value
`no value` stands for. -/
def Obligations.NoValueIsNeverRead : Prop :=
  ∀ (s t : State) (e : Nat), Inv s → step s = .next t →
    step { s with epoch := s.epoch + e } = .next { t with epoch := t.epoch + e }

/-- 41_encoder_loop.md R138: on a hit the string of `cur` grows by the byte; on a miss the code emitted is `cur`, the new entry
stands for its string followed by the byte, and the string of the new `cur` is the byte; strings never change. -/
def Obligations.CurrentCodeSpellsItsMatch : Prop :=
  ∀ (s t : State) (b : Byte) (c : Code), Inv s → s.fault = 0#2 → s.state = .running → s.cur = some c →
    exec (.byte b) s = .next t →
    (∀ d : Code, d.toNat < s.next.toNat → codeString t.table d = codeString s.table d ∧ codeString s.table d ≠ []) ∧
    ((t.out = s.out ∧ ∃ d, t.cur = some d ∧ codeString t.table d = codeString s.table c ++ [b]) ∨
     (t.cur = some (b.setWidth 12) ∧ codeString t.table (b.setWidth 12) = [b] ∧
      (s.next.toNat ≤ 4094 → codeString t.table s.next = codeString s.table c ++ [b]) ∧
      ∃ bs, t.out = s.out ++ byteEvents bs ∧ bs.flatMap byteBits ++ pendingBits t = pendingBits s ++ codeBits c))

/-- 41_encoder_loop.md R138, R139: whatever bytes a fresh core is given, the strings of the codes emitted so far, followed by
the string of `cur`, are the bytes; fewer codes than bytes have been emitted, and `min(codes, 3839)` entries inserted. -/
def Obligations.EmittedCodesSpellTheInput : Prop :=
  ∀ (s : State) (bs : List Byte) (rest : List HostAction), Inv s → s.fault = 0#2 → s.state = .start → bs ≠ [] →
    s.input = bs.map (fun b => .command (byteWord b)) ++ rest →
    ∃ (t : State) (cs : List Code) (ys : List Byte) (c : Code), Sys2Proof.core.run bs.length s = .next t ∧ t.fault = 0#2 ∧
      t.state = .running ∧ t.input = rest ∧ t.cur = some c ∧ t.out = s.out ++ byteEvents ys ∧
      ys.flatMap byteBits ++ pendingBits t = cs.flatMap codeBits ∧
      cs.flatMap (codeString t.table) ++ codeString t.table c = bs ∧
      cs.length + 1 ≤ bs.length ∧ t.table.length = min cs.length 3839

/-- 41_encoder_loop.md R144, 20_memory.md R61: one whole run of the table-based machine, from any fresh state, equals the
map-based encoder: its bytes are the codes of the bytes and the end-of-stream code, most significant bit first, padded with
zeros to a byte boundary, followed by the persist marker, and the run has completed. -/
def Obligations.RunEqualsMapEncoder : Prop :=
  ∀ (s : State) (bs : List Byte) (rest : List HostAction), Inv s → s.fault = 0#2 → s.state = .start →
    s.input = streamActions bs ++ rest →
    ∃ (t : State) (ys : List Byte), Sys2Proof.core.run (bs.length + 1) s = .next t ∧ completed t ∧ t.input = rest ∧
      t.out = s.out ++ byteEvents ys ++ [.outPersist] ∧
      ys.length = (12 * ((mapCodes bs).length + 1) + 7) / 8 ∧
      ys.flatMap byteBits = (mapCodes bs ++ [4095#12]).flatMap codeBits ++
        List.replicate (8 * ys.length - 12 * ((mapCodes bs).length + 1)) false

/-- 41_encoder_loop.md R141: the output bytes of a run are a function of its BYTE operands alone: two cores at the start of a
run, whatever their histories, produce the same events for the same stream. -/
def Obligations.RunsAreIndependentOfHistory : Prop :=
  ∀ (s s' t t' : State) (bs : List Byte) (rest rest' : List HostAction),
    Inv s → Inv s' → s.fault = 0#2 → s'.fault = 0#2 → s.state = .start → s'.state = .start →
    s.input = streamActions bs ++ rest → s'.input = streamActions bs ++ rest' →
    Sys2Proof.core.run (bs.length + 1) s = .next t → Sys2Proof.core.run (bs.length + 1) s' = .next t' →
    ∃ new, t.out = s.out ++ new ∧ t'.out = s'.out ++ new
end

