-- ==== Sys2Proof/Laws/State.lean ====
section
/-! SUPPORT. One lemma per field per named update of State: what each update writes and what it leaves alone. -/

namespace Sys2Proof.Machine

/-! `outByte` -/

@[simp] theorem outByte_state (b : Byte) (s : State) : (outByte b s).state = s.state := rfl
@[simp] theorem outByte_cur (b : Byte) (s : State) : (outByte b s).cur = s.cur := rfl
@[simp] theorem outByte_next (b : Byte) (s : State) : (outByte b s).next = s.next := rfl
@[simp] theorem outByte_acc (b : Byte) (s : State) : (outByte b s).acc = s.acc := rfl
@[simp] theorem outByte_cnt (b : Byte) (s : State) : (outByte b s).cnt = s.cnt := rfl
@[simp] theorem outByte_table (b : Byte) (s : State) : (outByte b s).table = s.table := rfl
@[simp] theorem outByte_fault (b : Byte) (s : State) : (outByte b s).fault = s.fault := rfl
@[simp] theorem outByte_faultInfo (b : Byte) (s : State) : (outByte b s).faultInfo = s.faultInfo := rfl
@[simp] theorem outByte_idx (b : Byte) (s : State) : (outByte b s).idx = s.idx := rfl
@[simp] theorem outByte_off (b : Byte) (s : State) : (outByte b s).off = s.off := rfl
@[simp] theorem outByte_n (b : Byte) (s : State) : (outByte b s).n = s.n := rfl
@[simp] theorem outByte_out (b : Byte) (s : State) : (outByte b s).out = s.out ++ [.outByte b] := rfl
@[simp] theorem outByte_input (b : Byte) (s : State) : (outByte b s).input = s.input := rfl
@[simp] theorem outByte_epoch (b : Byte) (s : State) : (outByte b s).epoch = s.epoch := rfl

/-! `outPersist` -/

@[simp] theorem outPersist_state (s : State) : (outPersist s).state = s.state := rfl
@[simp] theorem outPersist_cur (s : State) : (outPersist s).cur = s.cur := rfl
@[simp] theorem outPersist_next (s : State) : (outPersist s).next = s.next := rfl
@[simp] theorem outPersist_acc (s : State) : (outPersist s).acc = s.acc := rfl
@[simp] theorem outPersist_cnt (s : State) : (outPersist s).cnt = s.cnt := rfl
@[simp] theorem outPersist_table (s : State) : (outPersist s).table = s.table := rfl
@[simp] theorem outPersist_fault (s : State) : (outPersist s).fault = s.fault := rfl
@[simp] theorem outPersist_faultInfo (s : State) : (outPersist s).faultInfo = s.faultInfo := rfl
@[simp] theorem outPersist_idx (s : State) : (outPersist s).idx = s.idx := rfl
@[simp] theorem outPersist_off (s : State) : (outPersist s).off = s.off := rfl
@[simp] theorem outPersist_n (s : State) : (outPersist s).n = s.n := rfl
@[simp] theorem outPersist_out (s : State) : (outPersist s).out = s.out ++ [.outPersist] := rfl
@[simp] theorem outPersist_input (s : State) : (outPersist s).input = s.input := rfl
@[simp] theorem outPersist_epoch (s : State) : (outPersist s).epoch = s.epoch := rfl

/-! `applyReset` -/

@[simp] theorem applyReset_state (s : State) : (applyReset s).state = .start := rfl
@[simp] theorem applyReset_cur (s : State) : (applyReset s).cur = none := rfl
@[simp] theorem applyReset_next (s : State) : (applyReset s).next = 256#12 := rfl
@[simp] theorem applyReset_acc (s : State) : (applyReset s).acc = 0#32 := rfl
@[simp] theorem applyReset_cnt (s : State) : (applyReset s).cnt = 0#5 := rfl
@[simp] theorem applyReset_table (s : State) : (applyReset s).table = [] := rfl
@[simp] theorem applyReset_fault (s : State) : (applyReset s).fault = 0#2 := rfl
@[simp] theorem applyReset_faultInfo (s : State) : (applyReset s).faultInfo = 0#16 := rfl
@[simp] theorem applyReset_idx (s : State) : (applyReset s).idx = none := rfl
@[simp] theorem applyReset_off (s : State) : (applyReset s).off = none := rfl
@[simp] theorem applyReset_n (s : State) : (applyReset s).n = none := rfl
@[simp] theorem applyReset_out (s : State) : (applyReset s).out = [] := rfl
@[simp] theorem applyReset_input (s : State) : (applyReset s).input = s.input := rfl
@[simp] theorem applyReset_epoch (s : State) : (applyReset s).epoch = s.epoch + 1 := rfl

/-! `forgetScratch` -/

@[simp] theorem forgetScratch_state (s : State) : (forgetScratch s).state = s.state := rfl
@[simp] theorem forgetScratch_cur (s : State) : (forgetScratch s).cur = s.cur := rfl
@[simp] theorem forgetScratch_next (s : State) : (forgetScratch s).next = s.next := rfl
@[simp] theorem forgetScratch_acc (s : State) : (forgetScratch s).acc = s.acc := rfl
@[simp] theorem forgetScratch_cnt (s : State) : (forgetScratch s).cnt = s.cnt := rfl
@[simp] theorem forgetScratch_table (s : State) : (forgetScratch s).table = s.table := rfl
@[simp] theorem forgetScratch_fault (s : State) : (forgetScratch s).fault = s.fault := rfl
@[simp] theorem forgetScratch_faultInfo (s : State) : (forgetScratch s).faultInfo = s.faultInfo := rfl
@[simp] theorem forgetScratch_idx (s : State) : (forgetScratch s).idx = none := rfl
@[simp] theorem forgetScratch_off (s : State) : (forgetScratch s).off = none := rfl
@[simp] theorem forgetScratch_n (s : State) : (forgetScratch s).n = none := rfl
@[simp] theorem forgetScratch_out (s : State) : (forgetScratch s).out = s.out := rfl
@[simp] theorem forgetScratch_input (s : State) : (forgetScratch s).input = s.input := rfl
@[simp] theorem forgetScratch_epoch (s : State) : (forgetScratch s).epoch = s.epoch := rfl

/-! `freshRun` -/

@[simp] theorem freshRun_state (s : State) : (freshRun s).state = .start := rfl
@[simp] theorem freshRun_cur (s : State) : (freshRun s).cur = none := rfl
@[simp] theorem freshRun_next (s : State) : (freshRun s).next = 256#12 := rfl
@[simp] theorem freshRun_acc (s : State) : (freshRun s).acc = 0#32 := rfl
@[simp] theorem freshRun_cnt (s : State) : (freshRun s).cnt = 0#5 := rfl
@[simp] theorem freshRun_table (s : State) : (freshRun s).table = [] := rfl
@[simp] theorem freshRun_fault (s : State) : (freshRun s).fault = s.fault := rfl
@[simp] theorem freshRun_faultInfo (s : State) : (freshRun s).faultInfo = s.faultInfo := rfl
@[simp] theorem freshRun_idx (s : State) : (freshRun s).idx = none := rfl
@[simp] theorem freshRun_off (s : State) : (freshRun s).off = none := rfl
@[simp] theorem freshRun_n (s : State) : (freshRun s).n = none := rfl
@[simp] theorem freshRun_out (s : State) : (freshRun s).out = s.out := rfl
@[simp] theorem freshRun_input (s : State) : (freshRun s).input = s.input := rfl
@[simp] theorem freshRun_epoch (s : State) : (freshRun s).epoch = s.epoch + 1 := rfl

/-! `setScratch` -/

@[simp] theorem setScratch_state (p : Code) (b : Byte) (i k : Nat) (s : State) : (setScratch p b i k s).state = s.state := rfl
@[simp] theorem setScratch_cur (p : Code) (b : Byte) (i k : Nat) (s : State) : (setScratch p b i k s).cur = s.cur := rfl
@[simp] theorem setScratch_next (p : Code) (b : Byte) (i k : Nat) (s : State) : (setScratch p b i k s).next = s.next := rfl
@[simp] theorem setScratch_acc (p : Code) (b : Byte) (i k : Nat) (s : State) : (setScratch p b i k s).acc = s.acc := rfl
@[simp] theorem setScratch_cnt (p : Code) (b : Byte) (i k : Nat) (s : State) : (setScratch p b i k s).cnt = s.cnt := rfl
@[simp] theorem setScratch_table (p : Code) (b : Byte) (i k : Nat) (s : State) : (setScratch p b i k s).table = s.table := rfl
@[simp] theorem setScratch_fault (p : Code) (b : Byte) (i k : Nat) (s : State) : (setScratch p b i k s).fault = s.fault := rfl
@[simp] theorem setScratch_faultInfo (p : Code) (b : Byte) (i k : Nat) (s : State) : (setScratch p b i k s).faultInfo = s.faultInfo := rfl
@[simp] theorem setScratch_idx (p : Code) (b : Byte) (i k : Nat) (s : State) : (setScratch p b i k s).idx = some (BitVec.ofNat 13 i) := rfl
@[simp] theorem setScratch_off (p : Code) (b : Byte) (i k : Nat) (s : State) : (setScratch p b i k s).off = some (BitVec.ofNat 13 (probeOffset (hashIndex p b))) := rfl
@[simp] theorem setScratch_n (p : Code) (b : Byte) (i k : Nat) (s : State) : (setScratch p b i k s).n = some (BitVec.ofNat 13 k) := rfl
@[simp] theorem setScratch_out (p : Code) (b : Byte) (i k : Nat) (s : State) : (setScratch p b i k s).out = s.out := rfl
@[simp] theorem setScratch_input (p : Code) (b : Byte) (i k : Nat) (s : State) : (setScratch p b i k s).input = s.input := rfl
@[simp] theorem setScratch_epoch (p : Code) (b : Byte) (i k : Nat) (s : State) : (setScratch p b i k s).epoch = s.epoch := rfl

/-! `pushBits` -/

@[simp] theorem pushBits_state (c : Code) (s : State) : (pushBits c s).state = s.state := rfl
@[simp] theorem pushBits_cur (c : Code) (s : State) : (pushBits c s).cur = s.cur := rfl
@[simp] theorem pushBits_next (c : Code) (s : State) : (pushBits c s).next = s.next := rfl
@[simp] theorem pushBits_acc (c : Code) (s : State) : (pushBits c s).acc = s.acc ||| placeCode c s.cnt.toNat := rfl
@[simp] theorem pushBits_cnt (c : Code) (s : State) : (pushBits c s).cnt = s.cnt + 12#5 := rfl
@[simp] theorem pushBits_table (c : Code) (s : State) : (pushBits c s).table = s.table := rfl
@[simp] theorem pushBits_fault (c : Code) (s : State) : (pushBits c s).fault = s.fault := rfl
@[simp] theorem pushBits_faultInfo (c : Code) (s : State) : (pushBits c s).faultInfo = s.faultInfo := rfl
@[simp] theorem pushBits_idx (c : Code) (s : State) : (pushBits c s).idx = s.idx := rfl
@[simp] theorem pushBits_off (c : Code) (s : State) : (pushBits c s).off = s.off := rfl
@[simp] theorem pushBits_n (c : Code) (s : State) : (pushBits c s).n = s.n := rfl
@[simp] theorem pushBits_out (c : Code) (s : State) : (pushBits c s).out = s.out := rfl
@[simp] theorem pushBits_input (c : Code) (s : State) : (pushBits c s).input = s.input := rfl
@[simp] theorem pushBits_epoch (c : Code) (s : State) : (pushBits c s).epoch = s.epoch := rfl

/-! `drainByte` -/

@[simp] theorem drainByte_state (s : State) : (drainByte s).state = s.state := rfl
@[simp] theorem drainByte_cur (s : State) : (drainByte s).cur = s.cur := rfl
@[simp] theorem drainByte_next (s : State) : (drainByte s).next = s.next := rfl
@[simp] theorem drainByte_acc (s : State) : (drainByte s).acc = s.acc <<< 8 := rfl
@[simp] theorem drainByte_cnt (s : State) : (drainByte s).cnt = s.cnt - 8#5 := rfl
@[simp] theorem drainByte_table (s : State) : (drainByte s).table = s.table := rfl
@[simp] theorem drainByte_fault (s : State) : (drainByte s).fault = s.fault := rfl
@[simp] theorem drainByte_faultInfo (s : State) : (drainByte s).faultInfo = s.faultInfo := rfl
@[simp] theorem drainByte_idx (s : State) : (drainByte s).idx = s.idx := rfl
@[simp] theorem drainByte_off (s : State) : (drainByte s).off = s.off := rfl
@[simp] theorem drainByte_n (s : State) : (drainByte s).n = s.n := rfl
@[simp] theorem drainByte_out (s : State) : (drainByte s).out = s.out ++ [.outByte (topByte s.acc)] := rfl
@[simp] theorem drainByte_input (s : State) : (drainByte s).input = s.input := rfl
@[simp] theorem drainByte_epoch (s : State) : (drainByte s).epoch = s.epoch := rfl

/-! `firstByte` -/

@[simp] theorem firstByte_state (b : Byte) (s : State) : (firstByte b s).state = .running := rfl
@[simp] theorem firstByte_cur (b : Byte) (s : State) : (firstByte b s).cur = some (zext12 b) := rfl
@[simp] theorem firstByte_next (b : Byte) (s : State) : (firstByte b s).next = s.next := rfl
@[simp] theorem firstByte_acc (b : Byte) (s : State) : (firstByte b s).acc = s.acc := rfl
@[simp] theorem firstByte_cnt (b : Byte) (s : State) : (firstByte b s).cnt = s.cnt := rfl
@[simp] theorem firstByte_table (b : Byte) (s : State) : (firstByte b s).table = s.table := rfl
@[simp] theorem firstByte_fault (b : Byte) (s : State) : (firstByte b s).fault = s.fault := rfl
@[simp] theorem firstByte_faultInfo (b : Byte) (s : State) : (firstByte b s).faultInfo = s.faultInfo := rfl
@[simp] theorem firstByte_idx (b : Byte) (s : State) : (firstByte b s).idx = s.idx := rfl
@[simp] theorem firstByte_off (b : Byte) (s : State) : (firstByte b s).off = s.off := rfl
@[simp] theorem firstByte_n (b : Byte) (s : State) : (firstByte b s).n = s.n := rfl
@[simp] theorem firstByte_out (b : Byte) (s : State) : (firstByte b s).out = s.out := rfl
@[simp] theorem firstByte_input (b : Byte) (s : State) : (firstByte b s).input = s.input := rfl
@[simp] theorem firstByte_epoch (b : Byte) (s : State) : (firstByte b s).epoch = s.epoch := rfl

end Sys2Proof.Machine
end

