-- ==== Sys2Proof/Laws/Ops.lean ====
section
/-! SUPPORT. What the shared operations can do: sequencing, the healthy guard, raising, EMIT, FLUSH. -/

namespace Sys2Proof.Machine

/-- The end-of-stream code is 4095 (00_scope.md R5). -/
@[simp] theorem eosCode_eq : eosCode = 0xFFF#12 := rfl

/-- A sequence answers a next state exactly if both parts do. -/
theorem andThen_eq_next_iff {o : Host.Outcome State Fault Refusal} {k : State → Host.Outcome State Fault Refusal} {t : State} :
    andThen o k = .next t ↔ ∃ s, o = .next s ∧ k s = .next t := by
  cases o <;> simp [andThen]

@[simp] theorem andThen_refused (r : Refusal) (k : State → Host.Outcome State Fault Refusal) :
    andThen (.refused r) k = .refused r := rfl

@[simp] theorem andThen_next (s : State) (k : State → Host.Outcome State Fault Refusal) : andThen (.next s) k = k s := rfl

/-- The guard passes a healthy state on. -/
theorem whenHealthy_of_healthy {s : State} (h : s.fault = 0#2) (o : Host.Outcome State Fault Refusal) :
    whenHealthy s o = o := if_pos h

/-- The guard holds a faulted state (41_encoder_loop.md R142). -/
theorem whenHealthy_of_faulted {s : State} (h : s.fault ≠ 0#2) (o : Host.Outcome State Fault Refusal) :
    whenHealthy s o = .next s := if_neg h

/-- What the guard can do. -/
theorem whenHealthy_eq_next_iff {s t : State} {o : Host.Outcome State Fault Refusal} :
    whenHealthy s o = .next t ↔ (s.fault = 0#2 ∧ o = .next t) ∨ (s.fault ≠ 0#2 ∧ t = s) := by
  by_cases h : s.fault = 0#2 <;> simp [whenHealthy, h, eq_comm]

/-- Raising in a healthy state (60_exceptions.md R194). -/
theorem raise_of_healthy {s : State} (h : s.fault = 0#2) (c : Cause) (info : BitVec 16) :
    raise c info s = { s with fault := causeCode c, faultInfo := info } := if_pos h

/-- Whatever is raised, nothing but the two fault registers is written (60_exceptions.md R198). -/
theorem raise_frame (c : Cause) (info : BitVec 16) (s : State) :
    raise c info s = { s with fault := (raise c info s).fault, faultInfo := (raise c info s).faultInfo } := by
  unfold raise; split <;> rfl

/-- No cause code is 0 (60_exceptions.md R191). -/
theorem causeCode_ne_zero (c : Cause) : causeCode c ≠ 0#2 := by cases c <;> decide

/-- What draining can do: only the bit buffer and the trace change, and the trace grows by bytes. -/
theorem drainLoop_frame (fuel : Nat) (s : State) :
    ∃ bs : List Byte, drainLoop fuel s = { s with acc := (drainLoop fuel s).acc, cnt := (drainLoop fuel s).cnt,
                                                  out := s.out ++ bs.map .outByte } := by
  induction fuel generalizing s with
  | zero => exact ⟨[], by simp [drainLoop]⟩
  | succ fuel ih =>
    simp only [drainLoop]
    split
    · obtain ⟨bs, hbs⟩ := ih (drainByte s)
      refine ⟨topByte s.acc :: bs, ?_⟩
      rw [hbs]
      simp [drainByte, outByte]
    · exact ⟨[], by simp⟩

/-- What EMIT writes: only the bit buffer and the trace, and the trace grows by bytes (42_bit_packer.md R171). -/
theorem emitted_frame (c : Code) (s : State) :
    ∃ bs : List Byte, emitted c s = { s with acc := (emitted c s).acc, cnt := (emitted c s).cnt,
                                             out := s.out ++ bs.map .outByte } :=
  drainLoop_frame 3 (pushBits c s)

/-- EMIT answers a next state exactly for `cnt <= 20`. -/
theorem emit_eq_next_iff {c : Code} {s t : State} : emit c s = .next t ↔ s.cnt.toNat ≤ 20 ∧ t = emitted c s := by
  unfold emit
  split <;> simp_all [eq_comm]

/-- EMIT is refused for `cnt > 20` (93_implementation_defined.md U21). -/
theorem emit_of_gt {c : Code} {s : State} (h : 20 < s.cnt.toNat) : emit c s = .refused (.negativeShift s.cnt) :=
  if_neg (by omega)

/-- What FLUSH writes: only the bit buffer and the trace, which grows by bytes and then the persist marker
(42_bit_packer.md R173). -/
theorem flush_frame (s : State) :
    ∃ bs : List Byte, flush s = { s with acc := (flush s).acc, cnt := 0#5,
                                         out := s.out ++ bs.map .outByte ++ [.outPersist] } := by
  by_cases h : 0 < s.cnt.toNat
  · exact ⟨[topByte s.acc], by simp [flush, h, outPersist, outByte]⟩
  · have hc : s.cnt = 0#5 := by
      apply BitVec.eq_of_toNat_eq
      simpa using h
    have hf : flush s = outPersist s := if_neg h
    exact ⟨[], by rw [hf, ← hc]; simp [outPersist]⟩

end Sys2Proof.Machine
end

