-- ==== Sys2Proof/Laws/Table.lean ====
section
/-! SUPPORT. The laws of the dictionary table: read after write, the canonical form is kept, reading is membership. -/

namespace Sys2Proof.Machine

/-- Read after write at the written slot (20_memory.md R54, R55). -/
theorem tableRead_tableWrite_same (t : Memory) (i : Nat) (e : Entry) :
    tableRead (tableWrite t i (some e)) i = some e := by
  induction t with
  | nil => simp [tableWrite, tableRead]
  | cons x rest ih =>
    simp only [tableWrite]
    split
    · simp [tableRead]
    · split
      · simp [tableRead]
      · simp_all [tableRead]

/-- The slots of a canonical table lie above a bound that is below its first slot. -/
theorem tableRead_below {t : Memory} {i : Nat} (h : ∀ x ∈ t, i < x.1) : tableRead t i = none := by
  cases t with
  | nil => rfl
  | cons x rest =>
    have hx := h x (by simp)
    simp [tableRead, hx, Nat.ne_of_lt hx]

/-- The canonical form of a list with a first cell. -/
theorem wf_cons_iff {x : Nat × Entry} {t : Memory} :
    Memory.wf (x :: t) ↔ (∀ y ∈ t, x.1 < y.1) ∧ x.1 < Config.tableSize ∧ Memory.wf t := by
  simp only [Memory.wf, List.map_cons, List.pairwise_cons, List.mem_map, List.mem_cons, forall_exists_index, and_imp,
    forall_apply_eq_imp_iff₂, forall_eq_or_imp]
  tauto

/-- Reading an occupied slot is membership of its cell, in a canonical table. -/
theorem tableRead_eq_some_iff {t : Memory} (h : t.wf) (i : Nat) (e : Entry) :
    tableRead t i = some e ↔ (i, e) ∈ t := by
  induction t with
  | nil => simp [tableRead]
  | cons x rest ih =>
    obtain ⟨hlt, -, hrest⟩ := wf_cons_iff.1 h
    have step := ih hrest
    rcases Nat.lt_trichotomy i x.1 with hi | hi | hi
    · have hne : ∀ y ∈ rest, y.1 ≠ i := fun y hy => by have := hlt y hy; omega
      simp only [tableRead, hi, Nat.ne_of_lt hi, if_true, if_false, List.mem_cons, reduceCtorEq, false_iff, not_or]
      exact ⟨fun he => by simp [← he] at hi, fun hm => hne _ hm rfl⟩
    · subst hi
      simp only [tableRead, if_true, Option.some.injEq, List.mem_cons]
      constructor
      · rintro rfl; exact Or.inl rfl
      · rintro (he | hm)
        · rw [← he]
        · exact absurd (hlt _ hm) (by simp)
    · have h1 : ¬ i = x.1 := by omega
      have h2 : ¬ i < x.1 := by omega
      simp only [tableRead, h1, h2, if_false, List.mem_cons, step]
      constructor
      · exact Or.inr
      · rintro (he | hm)
        · exact absurd (congrArg Prod.fst he) h1
        · exact hm

/-- An empty slot has no cell, in a canonical table. -/
theorem tableRead_eq_none_iff {t : Memory} (h : t.wf) (i : Nat) :
    tableRead t i = none ↔ ∀ x ∈ t, x.1 ≠ i := by
  rw [Option.eq_none_iff_forall_not_mem]
  simp only [Option.mem_def, tableRead_eq_some_iff h]
  exact ⟨fun hn x hx he => hn x.2 (by rw [← he]; exact hx), fun hn e he => hn _ he rfl⟩

/-- Every cell after a write is the written one or an old one of another slot. -/
theorem mem_tableWrite {t : Memory} {i : Nat} {v : Option Entry} {y : Nat × Entry} (h : t.wf)
    (hy : y ∈ tableWrite t i v) : (y.1 = i ∧ v = some y.2) ∨ (y ∈ t ∧ y.1 ≠ i) := by
  induction t with
  | nil => cases v <;> simp_all [tableWrite]
  | cons x rest ih =>
    obtain ⟨hlt, -, hrest⟩ := wf_cons_iff.1 h
    have later : ∀ z ∈ rest, x.1 < z.1 := hlt
    simp only [tableWrite] at hy
    rcases Nat.lt_trichotomy i x.1 with hi | hi | hi
    · rw [if_pos hi] at hy
      have old : y ∈ x :: rest → y ∈ x :: rest ∧ y.1 ≠ i := fun hm => ⟨hm, by
        rcases List.mem_cons.1 hm with rfl | hm'
        · omega
        · have := later y hm'; omega⟩
      cases v with
      | none => exact Or.inr (old hy)
      | some e =>
        rcases List.mem_cons.1 hy with rfl | hm
        · exact Or.inl ⟨rfl, rfl⟩
        · exact Or.inr (old hm)
    · subst hi
      rw [if_neg (Nat.lt_irrefl _), if_pos rfl] at hy
      have old : y ∈ rest → y ∈ x :: rest ∧ y.1 ≠ x.1 := fun hm =>
        ⟨List.mem_cons_of_mem _ hm, by have := later y hm; omega⟩
      cases v with
      | none => exact Or.inr (old hy)
      | some e =>
        rcases List.mem_cons.1 hy with rfl | hm
        · exact Or.inl ⟨rfl, rfl⟩
        · exact Or.inr (old hm)
    · rw [if_neg (by omega), if_neg (by omega)] at hy
      rcases List.mem_cons.1 hy with rfl | hm
      · exact Or.inr ⟨List.mem_cons_self, by omega⟩
      · rcases ih hrest hm with hw | ⟨ho, hne⟩
        · exact Or.inl hw
        · exact Or.inr ⟨List.mem_cons_of_mem _ ho, hne⟩

/-- A write to a slot of the table keeps the canonical form. -/
theorem tableWrite_wf {t : Memory} {i : Nat} (v : Option Entry) (h : t.wf) (hi : i < Config.tableSize) :
    (tableWrite t i v).wf := by
  induction t with
  | nil => cases v <;> simp [tableWrite, Memory.wf, hi]
  | cons x rest ih =>
    obtain ⟨hlt, hx, hrest⟩ := wf_cons_iff.1 h
    simp only [tableWrite]
    rcases Nat.lt_trichotomy i x.1 with hc | hc | hc
    · rw [if_pos hc]
      cases v with
      | none => exact h
      | some e =>
        refine wf_cons_iff.2 ⟨fun y hy => ?_, hi, h⟩
        rcases List.mem_cons.1 hy with rfl | hm
        · exact hc
        · exact Nat.lt_trans hc (hlt y hm)
    · rw [if_neg (by omega), if_pos hc]
      cases v with
      | none => exact hrest
      | some e => exact wf_cons_iff.2 ⟨fun y hy => by have := hlt y hy; simpa [hc] using this, hi, hrest⟩
    · rw [if_neg (by omega), if_neg (by omega)]
      refine wf_cons_iff.2 ⟨fun y hy => ?_, hx, ih hrest⟩
      rcases mem_tableWrite hrest hy with ⟨he, -⟩ | ⟨hm, -⟩
      · omega
      · exact hlt y hm

/-- Read after write at another slot. -/
theorem tableRead_tableWrite_other {t : Memory} {i j : Nat} (v : Option Entry) (h : t.wf) (hj : j ≠ i) :
    tableRead (tableWrite t i v) j = tableRead t j := by
  induction t with
  | nil =>
    cases v with
    | none => rfl
    | some e => simp [tableWrite, tableRead, hj]
  | cons x rest ih =>
    obtain ⟨hlt, -, hrest⟩ := wf_cons_iff.1 h
    simp only [tableWrite]
    rcases Nat.lt_trichotomy i x.1 with hc | hc | hc
    · rw [if_pos hc]
      cases v with
      | none => rfl
      | some e =>
        by_cases hji : j < i
        · rw [tableRead_below (t := x :: rest)]
          · simp [tableRead, hj, hji]
          · intro y hy
            rcases List.mem_cons.1 hy with rfl | hm
            · omega
            · have := hlt y hm; omega
        · rw [tableRead, if_neg hj, if_neg hji]
    · subst hc
      rw [if_neg (by omega), if_pos rfl]
      by_cases hjx : j < x.1
      · have below : tableRead rest j = none :=
          tableRead_below fun y hy => by have := hlt y hy; omega
        cases v <;> simp [tableRead, hj, hjx, below]
      · cases v <;> simp [tableRead, hj, hjx]
    · rw [if_neg (by omega), if_neg (by omega)]
      simp only [tableRead, ih hrest]

/-- Writing an entry to an empty slot adds one cell. -/
theorem tableWrite_perm {t : Memory} {i : Nat} (e : Entry) (h : t.wf) (hi : tableRead t i = none) :
    (tableWrite t i (some e)).Perm ((i, e) :: t) := by
  induction t with
  | nil => simp [tableWrite]
  | cons x rest ih =>
    obtain ⟨hlt, -, hrest⟩ := wf_cons_iff.1 h
    have hne : x.1 ≠ i := (tableRead_eq_none_iff h i).1 hi x List.mem_cons_self
    have hi' : tableRead rest i = none :=
      (tableRead_eq_none_iff hrest i).2 fun y hy => (tableRead_eq_none_iff h i).1 hi y (List.mem_cons_of_mem _ hy)
    simp only [tableWrite]
    split
    · exact List.Perm.refl _
    · rw [if_neg (fun he => hne he.symm)]
      exact ((ih hrest hi').cons x).trans (List.Perm.swap _ _ _)

/-- `memWrite` answers a next state exactly for an index that names a slot (20_memory.md R57). -/
theorem memWrite_eq_next_iff {i : Nat} {v : Option Entry} {s t : State} :
    memWrite i v s = .next t ↔ i < Config.tableSize ∧ t = { s with table := tableWrite s.table i v } := by
  unfold memWrite
  split <;> simp_all [eq_comm]

/-- The table after reset is in canonical form. -/
theorem reset_table_wf : State.reset.table.wf := by decide

end Sys2Proof.Machine
end

