-- ==== Sys2Proof/Laws/Probe.lean ====
section
/-! SUPPORT. What HASH, OFFSET, one probe step and the probe loop can do (40_dictionary.md). -/

namespace Sys2Proof.Machine

/-- A hash names a slot (20_memory.md R53). -/
theorem hashIndex_lt (p : Code) (b : Byte) : hashIndex p b < Config.tableSize := Nat.mod_lt _ (by decide)

/-- `OFFSET` of a slot index is between 1 and `TABLE_SIZE` (`TABLE_SIZE` itself never, for a slot index). -/
theorem probeOffset_pos {i : Nat} (h : i < Config.tableSize) : 1 ≤ probeOffset i ∧ probeOffset i < Config.tableSize := by
  unfold probeOffset
  split
  · decide
  · omega

/-- A probe step stays inside the table (20_memory.md R53). -/
theorem nextIndex_lt {off i : Nat} (hi : i < Config.tableSize) : nextIndex off i < Config.tableSize := by
  unfold nextIndex
  split <;> omega

/-- Every slot of a walk is a slot of the table. -/
theorem walkSlot_lt (p : Code) (b : Byte) (k : Nat) : walkSlot p b k < Config.tableSize := by
  unfold walkSlot
  induction k with
  | zero => exact hashIndex_lt p b
  | succ k ih => rw [Function.iterate_succ_apply']; exact nextIndex_lt ih

/-- What the probe loop can do from inspection `n` at slot `idx` with `left` inspections left: it hits or misses at inspection
`n + k` after `k` slots that hold other pairs, or all `left` slots hold other pairs. -/
theorem probeLoop_cases (t : Memory) (p : Code) (b : Byte) (off : Nat) (left idx n : Nat) :
    (∃ k e, k < left ∧ probeLoop t p b off left idx n = .hit ((nextIndex off)^[k] idx) (n + k) e ∧
        tableRead t ((nextIndex off)^[k] idx) = some e ∧ e.pre = p ∧ e.byte = b ∧
        ∀ j, j < k → holdsOther t p b ((nextIndex off)^[j] idx)) ∨
    (∃ k, k < left ∧ probeLoop t p b off left idx n = .miss ((nextIndex off)^[k] idx) (n + k) ∧
        tableRead t ((nextIndex off)^[k] idx) = none ∧ ∀ j, j < k → holdsOther t p b ((nextIndex off)^[j] idx)) ∨
    (probeLoop t p b off left idx n = .overflow ∧ ∀ j, j < left → holdsOther t p b ((nextIndex off)^[j] idx)) := by
  induction left generalizing idx n with
  | zero => exact Or.inr (Or.inr ⟨rfl, by simp⟩)
  | succ left ih =>
    rcases hr : tableRead t idx with _ | e
    · exact Or.inr (Or.inl ⟨0, by omega, by simp [probeLoop, hr], by simpa using hr, by simp⟩)
    · by_cases hm : e.pre = p ∧ e.byte = b
      · exact Or.inl ⟨0, e, by omega, by simp [probeLoop, hr, hm], by simpa using hr, hm.1, hm.2, by simp⟩
      · have first : holdsOther t p b idx := ⟨e, hr, hm⟩
        have eq : probeLoop t p b off (left + 1) idx n = probeLoop t p b off left (nextIndex off idx) (n + 1) := by
          simp [probeLoop, hr, hm]
        have shift : ∀ k, (∀ j, j < k → holdsOther t p b ((nextIndex off)^[j] (nextIndex off idx))) →
            ∀ j, j < k + 1 → holdsOther t p b ((nextIndex off)^[j] idx) := fun k hk j hj => by
          cases j with
          | zero => exact first
          | succ j => exact hk j (by omega)
        have arith : ∀ k, n + 1 + k = n + (k + 1) := fun k => by omega
        rw [eq]
        rcases ih (nextIndex off idx) (n + 1) with ⟨k, e', hk, h1, h2, h3, h4, h5⟩ | ⟨k, hk, h1, h2, h3⟩ | ⟨h1, h2⟩
        · exact Or.inl ⟨k + 1, e', by omega, by rw [h1, arith]; rfl, h2, h3, h4, shift k h5⟩
        · exact Or.inr (Or.inl ⟨k + 1, by omega, by rw [h1, arith]; rfl, h2, shift k h3⟩)
        · exact Or.inr (Or.inr ⟨h1, shift left h2⟩)

/-- A hit of PROBE read the entry it answers with, and the entry is the pair's. -/
theorem probe_hit {t : Memory} {p : Code} {b : Byte} {idx n : Nat} {e : Entry} (h : probe t p b = .hit idx n e) :
    n < Config.tableSize ∧ idx = walkSlot p b n ∧ tableRead t idx = some e ∧ e.pre = p ∧ e.byte = b := by
  unfold probe at h
  rcases probeLoop_cases t p b (probeOffset (hashIndex p b)) Config.tableSize (hashIndex p b) 0 with
    ⟨k, e', hk, h1, h2, h3, h4, -⟩ | ⟨k, -, h1, -, -⟩ | ⟨h1, -⟩
  · rw [h1] at h
    simp only [ProbeResult.hit.injEq, Nat.zero_add] at h
    obtain ⟨rfl, rfl, rfl⟩ := h
    exact ⟨hk, rfl, h2, h3, h4⟩
  · simp [h1] at h
  · simp [h1] at h

/-- A miss of PROBE is an empty slot of the table. -/
theorem probe_miss {t : Memory} {p : Code} {b : Byte} {idx n : Nat} (h : probe t p b = .miss idx n) :
    n < Config.tableSize ∧ idx = walkSlot p b n ∧ idx < Config.tableSize ∧ tableRead t idx = none := by
  unfold probe at h
  rcases probeLoop_cases t p b (probeOffset (hashIndex p b)) Config.tableSize (hashIndex p b) 0 with
    ⟨k, e', -, h1, -⟩ | ⟨k, hk, h1, h2, -⟩ | ⟨h1, -⟩
  · simp [h1] at h
  · rw [h1] at h
    simp only [ProbeResult.miss.injEq, Nat.zero_add] at h
    obtain ⟨rfl, rfl⟩ := h
    exact ⟨hk, rfl, walkSlot_lt p b k, h2⟩
  · simp [h1] at h

end Sys2Proof.Machine
end

