-- ==== Sys2Proof/Laws/Step.lean ====
section
/-! SUPPORT. What the main loop and one step can do: the inversion lemmas from which the whole-machine statements start. -/

namespace Sys2Proof.Machine

/-- What inserting an entry can do on a miss (41_encoder_loop.md R134, R137). -/
theorem learn_cases {idx : Nat} {p : Code} {b : Byte} {s t : State} (h : learn idx p b s = .next t) :
    (dictFull s = true ∧ t = s) ∨
    (dictFull s = false ∧ idx < Config.tableSize ∧
      t = { s with table := tableWrite s.table idx (some ⟨p, b, s.next⟩), next := s.next + 1#12 }) := by
  unfold learn at h
  split at h
  · case isTrue hf =>
    cases h; exact Or.inl ⟨hf, rfl⟩
  · case isFalse hf =>
    obtain ⟨s', h1, h2⟩ := andThen_eq_next_iff.1 h
    obtain ⟨hi, rfl⟩ := memWrite_eq_next_iff.1 h1
    cases h2
    exact Or.inr ⟨by simpa using hf, hi, rfl⟩

/-- What BYTE in RUNNING can do (41_encoder_loop.md R134): hit, miss, or exhaust the walk. -/
theorem mainLoop_cases {b : Byte} {s t : State} (h : mainLoop b s = .next t) :
    (∃ idx n e, probe s.table (readCur s) b = .hit idx n e ∧ t = forgetScratch { s with cur := some e.code }) ∨
    (∃ idx n s2, probe s.table (readCur s) b = .miss idx n ∧ s.cnt.toNat ≤ 20 ∧
      learn idx (readCur s) b (emitted (readCur s) s) = .next s2 ∧
      t = forgetScratch { s2 with cur := some (zext12 b) }) ∨
    (probe s.table (readCur s) b = .overflow ∧ t = raiseProbeOverflow (readCur s) b s) := by
  unfold mainLoop at h
  split at h
  · case h_1 hp => cases h; exact Or.inr (Or.inr ⟨hp, rfl⟩)
  · case h_2 idx n e hp => cases h; exact Or.inl ⟨idx, n, e, hp, rfl⟩
  · case h_3 idx n hp =>
    obtain ⟨s1, h1, h2⟩ := andThen_eq_next_iff.1 h
    obtain ⟨hc, rfl⟩ := emit_eq_next_iff.1 h1
    obtain ⟨s2, h3, h4⟩ := andThen_eq_next_iff.1 h2
    cases h4
    exact Or.inr (Or.inl ⟨idx, n, s2, hp, hc, h3, rfl⟩)

/-- What the end of a run can do (41_encoder_loop.md R135). -/
theorem finishRun_eq_next_iff {s t : State} :
    finishRun s = .next t ↔ s.cnt.toNat ≤ 20 ∧
      t = { flush { emitted eosCode s with state := .flushing } with state := .done } := by
  unfold finishRun
  rw [andThen_eq_next_iff]
  constructor
  · rintro ⟨s1, h1, h2⟩
    obtain ⟨hc, rfl⟩ := emit_eq_next_iff.1 h1
    cases h2
    exact ⟨hc, rfl⟩
  · rintro ⟨hc, rfl⟩
    exact ⟨_, emit_eq_next_iff.2 ⟨hc, rfl⟩, rfl⟩

/-- What one step can do: nothing is offered, reset, a command, or a reserved word. -/
theorem step_cases {s t : State} (h : step s = .next t) :
    (s.input = [] ∧ t = s) ∨
    (∃ rest, s.input = .reset :: rest ∧ t = applyReset { s with input := rest }) ∨
    (∃ w rest i, s.input = .command w :: rest ∧ decode w = .command i ∧ exec i { s with input := rest } = .next t) ∨
    (∃ w rest, s.input = .command w :: rest ∧ (∀ i, decode w ≠ .command i) ∧
      whenHealthy { s with input := rest } (.next (raiseProtocol w { s with input := rest })) = .next t) := by
  unfold step takeAction nextAction at h
  rcases hin : s.input with _ | ⟨_ | _, rest⟩
  · simp only [hin] at h; cases h; exact Or.inl ⟨rfl, rfl⟩
  · case command w =>
    simp only [hin] at h
    rcases hd : decode w with i | d | d
    · refine Or.inr (Or.inr (Or.inl ⟨w, rest, i, rfl, hd, ?_⟩))
      simpa [acceptCommand, hd] using h
    · refine Or.inr (Or.inr (Or.inr ⟨w, rest, rfl, by simp [hd], ?_⟩))
      simpa [acceptCommand, rejectReserved, hd] using h
    · refine Or.inr (Or.inr (Or.inr ⟨w, rest, rfl, by simp [hd], ?_⟩))
      simpa [acceptCommand, rejectReserved, hd] using h
  · simp only [hin] at h; cases h; exact Or.inr (Or.inl ⟨rest, rfl, rfl⟩)

/-- The invariant says nothing of what the host is going to do. -/
theorem inv_set_input {s : State} (h : Inv s) (acts : List HostAction) : Inv { s with input := acts } where
  tableWf := h.tableWf
  nextRange := h.nextRange
  codes := h.codes
  olderPrefix := h.olderPrefix
  found := h.found
  cntCases := h.cntCases
  accClear := h.accClear
  startFresh := h.startFresh
  runningCur := h.runningCur
  doneDrained := h.doneDrained
  notFlushing := h.notFlushing
  scratchEmpty := h.scratchEmpty
  infoClear := h.infoClear

end Sys2Proof.Machine
end

