-- ==== Sys2Proof/Laws/Exec.lean ====
section
/-! SUPPORT. What each instruction can do in a healthy core, one inversion lemma per meaning: the cases of its rule. -/

namespace Sys2Proof.Machine

/-- A faulted core executes nothing (41_encoder_loop.md R142). -/
theorem exec_of_faulted (i : Instr) {s : State} (h : s.fault ≠ 0#2) : exec i s = .next s := by
  cases i <;> exact whenHealthy_of_faulted h _

/-- EMIT writes the bit buffer and the trace only. -/
theorem emitted_eta (c : Code) (s : State) :
    emitted c s = { s with acc := (emitted c s).acc, cnt := (emitted c s).cnt, out := (emitted c s).out } := by
  obtain ⟨bs, h⟩ := emitted_frame c s
  rw [h]

/-- FLUSH writes the bit buffer and the trace only. -/
theorem flush_eta (s : State) :
    flush s = { s with acc := (flush s).acc, cnt := (flush s).cnt, out := (flush s).out } := by
  unfold flush; split <;> rfl

/-- The end of a run writes `state`, the bit buffer and the trace, which grows by bytes and the persist marker. -/
theorem finishRun_frame {s t : State} (h : finishRun s = .next t) :
    t.state = .done ∧ t = { s with state := .done, acc := t.acc, cnt := 0#5, out := t.out } ∧
      ∃ bs : List Byte, t.out = s.out ++ bs.map .outByte ++ [.outPersist] := by
  obtain ⟨-, rfl⟩ := finishRun_eq_next_iff.1 h
  obtain ⟨b1, h1⟩ := emitted_frame eosCode s
  obtain ⟨b2, h2⟩ := flush_frame { emitted eosCode s with state := .flushing }
  rw [h2, h1]
  exact ⟨rfl, rfl, b1 ++ b2, by simp⟩

/-- What INIT can do in a healthy core (41_encoder_loop.md R132). -/
theorem execInit_cases {s t : State} (h0 : s.fault = 0#2) (h : exec .init s = .next t) :
    (protocolIn .init s.state = true ∧ t = { s with fault := 2#2, faultInfo := zext16 initWord }) ∨
    (protocolIn .init s.state = false ∧ t = freshRun s) := by
  cases hs : s.state <;>
    simp only [exec, execInit, hs, whenHealthy_of_healthy h0, raiseProtocol, raise_of_healthy h0, causeCode,
      Host.Outcome.next.injEq] at h <;> simp [protocolIn, h.symm]

/-- What BYTE can do in a healthy core (41_encoder_loop.md R131, R133, R134, R137). -/
theorem execByte_cases {b : Byte} {s t : State} (h0 : s.fault = 0#2) (h : exec (.byte b) s = .next t) :
    (protocolIn (.byte b) s.state = true ∧ t = { s with fault := 2#2, faultInfo := zext16 (byteWord b) }) ∨
    (s.state = .start ∧ t = { s with cur := some (zext12 b), state := .running }) ∨
    (s.state = .running ∧ ∃ idx n e, probe s.table (readCur s) b = .hit idx n e ∧
      t = { s with cur := some e.code, idx := none, off := none, n := none }) ∨
    (s.state = .running ∧ s.cnt.toNat ≤ 20 ∧ ∃ idx n, probe s.table (readCur s) b = .miss idx n ∧
      t = { s with
        cur := some (zext12 b), idx := none, off := none, n := none,
        acc := (emitted (readCur s) s).acc, cnt := (emitted (readCur s) s).cnt, out := (emitted (readCur s) s).out,
        table := if dictFull s then s.table else tableWrite s.table idx (some ⟨readCur s, b, s.next⟩),
        next := if dictFull s then s.next else s.next + 1#12 }) ∨
    (s.state = .running ∧ probe s.table (readCur s) b = .overflow ∧
      t = { s with fault := 3#2, faultInfo := BitVec.ofNat 16 (hashIndex (readCur s) b) }) := by
  cases hs : s.state <;>
    simp only [exec, execByte, hs, whenHealthy_of_healthy h0, raiseProtocol, raise_of_healthy h0, causeCode,
      Host.Outcome.next.injEq] at h
  · exact Or.inr (Or.inl ⟨rfl, h.symm⟩)
  · refine Or.inr (Or.inr ?_)
    rcases mainLoop_cases h with ⟨idx, n, e, hp, rfl⟩ | ⟨idx, n, s2, hp, hc, hl, rfl⟩ | ⟨hp, rfl⟩
    · exact Or.inl ⟨rfl, idx, n, e, hp, by rw [← hs]; rfl⟩
    · refine Or.inr (Or.inl ⟨rfl, hc, idx, n, hp, ?_⟩)
      have hd : dictFull (emitted (readCur s) s) = dictFull s := by rw [emitted_eta]; rfl
      rcases learn_cases hl with ⟨hf, rfl⟩ | ⟨hf, -, rfl⟩ <;> rw [hd] at hf <;> rw [emitted_eta] <;>
        simp [forgetScratch, hf, hs]
    · exact Or.inr (Or.inr ⟨rfl, hp, by rw [← hs]; exact raise_of_healthy h0 _ _⟩)
  · exact Or.inl ⟨rfl, h.symm⟩
  · exact Or.inl ⟨rfl, h.symm⟩

/-- What END can do in a healthy core (41_encoder_loop.md R135). -/
theorem execEndOfInput_cases {s t : State} (h0 : s.fault = 0#2) (h : exec .endOfInput s = .next t) :
    (protocolIn .endOfInput s.state = true ∧ t = { s with fault := 2#2, faultInfo := zext16 endWord }) ∨
    (protocolIn .endOfInput s.state = false ∧ t = { s with state := .done, acc := t.acc, cnt := 0#5, out := t.out } ∧
      ∃ bs : List Byte, t.out = s.out ++ bs.map .outByte ++ [.outPersist]) := by
  cases hs : s.state <;>
    simp only [exec, execEndOfInput, hs, whenHealthy_of_healthy h0, raiseProtocol, raise_of_healthy h0, causeCode,
      Host.Outcome.next.injEq] at h
  · exact Or.inr ⟨rfl, (finishRun_frame h).2⟩
  · obtain ⟨u, h1, h2⟩ := andThen_eq_next_iff.1 h
    obtain ⟨-, rfl⟩ := emit_eq_next_iff.1 h1
    obtain ⟨b1, hb⟩ := emitted_frame (readCur s) s
    obtain ⟨-, e2, b2, e3⟩ := finishRun_frame h2
    refine Or.inr ⟨rfl, ?_, b1 ++ b2, ?_⟩
    · rw [e2, hb]
    · rw [e3, hb]; simp
  · exact Or.inl ⟨rfl, h.symm⟩
  · exact Or.inl ⟨rfl, h.symm⟩

/-- What ABORT can do in a healthy core (41_encoder_loop.md R136). -/
theorem execAbort_cases {r : Byte} {s t : State} (h0 : s.fault = 0#2) (h : exec (.abort r) s = .next t) :
    t = { s with fault := 1#2, faultInfo := zext16 (abortWord r) } := by
  simp only [exec, execAbort, whenHealthy_of_healthy h0, raise_of_healthy h0, causeCode, Host.Outcome.next.injEq] at h
  exact h.symm

/-- What EMIT and the three output codes can do in a healthy core (42_bit_packer.md R171). -/
theorem execPacked_cases {i : Instr} {c : Code} {s t : State} (h0 : s.fault = 0#2) (hi : encode i = .code c ∨ i = .emit c)
    (h : exec i s = .next t) : s.cnt.toNat ≤ 20 ∧ t = emitted c s := by
  cases i <;> simp only [encode, Encoding.code.injEq, Instr.emit.injEq, reduceCtorEq, or_false, false_or] at hi <;>
    subst hi <;> simp only [exec, execLit, execStr, execEos, execEmit, whenHealthy_of_healthy h0] at h <;>
    exact emit_eq_next_iff.1 h

/-- What FLUSH can do in a healthy core (42_bit_packer.md R173). -/
theorem execFlush_cases {s t : State} (h0 : s.fault = 0#2) (h : exec .flush s = .next t) : t = flush s := by
  simp only [exec, execFlush, whenHealthy_of_healthy h0, Host.Outcome.next.injEq] at h
  exact h.symm

/-- What PROBE can do in a healthy core (40_dictionary.md R103, R106). -/
theorem execProbe_cases {p : Code} {b : Byte} {s t : State} (h0 : s.fault = 0#2) (h : exec (.probe p b) s = .next t) :
    (probe s.table p b = .overflow ∧ t = { s with fault := 3#2, faultInfo := BitVec.ofNat 16 (hashIndex p b) }) ∨
    (∃ idx n, (probe s.table p b = .miss idx n ∨ ∃ e, probe s.table p b = .hit idx n e) ∧ t = setScratch p b idx n s) := by
  simp only [exec, execProbe, whenHealthy_of_healthy h0] at h
  rcases hp : probe s.table p b with ⟨idx, n, e⟩ | ⟨idx, n⟩ | _ <;> simp only [hp, Host.Outcome.next.injEq] at h
  · exact Or.inr ⟨idx, n, Or.inr ⟨e, rfl⟩, h.symm⟩
  · exact Or.inr ⟨idx, n, Or.inl rfl, h.symm⟩
  · exact Or.inl ⟨rfl, by rw [← h]; exact raise_of_healthy h0 _ _⟩

/-- What INSERT can do in a healthy core (40_dictionary.md R105). -/
theorem execInsert_cases {i : Index} {p : Code} {b : Byte} {c : Code} {s t : State} (h0 : s.fault = 0#2)
    (h : exec (.insert i p b c) s = .next t) :
    i.toNat < Config.tableSize ∧ t = { s with table := tableWrite s.table i.toNat (some ⟨p, b, c⟩) } := by
  simp only [exec, execInsert, whenHealthy_of_healthy h0] at h
  exact memWrite_eq_next_iff.1 h

/-- What HASH can do in a healthy core (40_dictionary.md R101). -/
theorem execHash_cases {p : Code} {b : Byte} {s t : State} (h0 : s.fault = 0#2) (h : exec (.hash p b) s = .next t) :
    t = { s with idx := some (BitVec.ofNat 13 (hashIndex p b)) } := by
  simp only [exec, execHash, whenHealthy_of_healthy h0, Host.Outcome.next.injEq] at h
  exact h.symm

/-- What OFFSET can do in a healthy core (40_dictionary.md R102). -/
theorem execOffset_cases {i : Index} {s t : State} (h0 : s.fault = 0#2) (h : exec (.offset i) s = .next t) :
    i.toNat < Config.tableSize ∧ t = { s with off := some (BitVec.ofNat 13 (probeOffset i.toNat)) } := by
  simp only [exec, execOffset, whenHealthy_of_healthy h0] at h
  split at h
  · case isTrue hi => cases h; exact ⟨hi, rfl⟩
  · cases h

end Sys2Proof.Machine
end

