-- ==== Sys2Proof/Laws/PerInstr.lean ====
section
/-! SUPPORT. Statements for all instructions, made per instruction: the format of an instruction's encoding is the format its
row of spec/opcode_table.json has (30_encoding.md R70, R73, R79). -/

namespace Sys2Proof.Laws.EncodeFormat

/-- The encoder writes the instruction in its row's format. -/
def Statement (i : Instr) : Prop := (encode i).format = i.format

theorem init : Statement .init := rfl
theorem byte (b : Byte) : Statement (.byte b) := rfl
theorem endOfInput : Statement .endOfInput := rfl
theorem abort (r : Byte) : Statement (.abort r) := rfl
theorem lit (b : Byte) : Statement (.lit b) := rfl
theorem str (c : Code) : Statement (.str c) := rfl
theorem eos : Statement .eos := rfl
theorem hash (p : Code) (b : Byte) : Statement (.hash p b) := rfl
theorem offset (idx0 : Index) : Statement (.offset idx0) := rfl
theorem probe (p : Code) (b : Byte) : Statement (.probe p b) := rfl
theorem insert (idx : Index) (p : Code) (b : Byte) (c : Code) : Statement (.insert idx p b c) := rfl
theorem emit (c : Code) : Statement (.emit c) := rfl
theorem flush : Statement .flush := rfl

end Sys2Proof.Laws.EncodeFormat
end

