-- ==== Sys2Proof/Tests/Slice0.lean ====
section
/-! SUPPORT. The model's own tests, with expected results from spec/95_test_vectors.md and the rules' examples, and one witness
per statement that has hypotheses. -/

open Sys2Proof Sys2Proof.Machine

namespace Sys2Proof.Tests

/-- The next state of an outcome, if it is one. -/
def nextState (o : Host.Outcome State Fault Refusal) : Option State :=
  match o with
  | .next s => some s
  | .fault _ => none
  | .refused _ => none

/-- An entry given by numbers. -/
def entry (p b c : Nat) : Entry := ⟨BitVec.ofNat 12 p, BitVec.ofNat 8 b, BitVec.ofNat 12 c⟩

/-- RUNNING after the first byte 'A': `cur = 65`, nothing learned, nothing pending. -/
def afterA : State := { State.reset with state := .running, cur := some 65#12 }

/-- RUNNING after "AA": the pair (65, 65) is stored, 4 bits pending (S1, step 2). -/
def afterAA : State :=
  { afterA with next := 257#12, acc := 0x10000000#32, cnt := 4#5, table := [(1105, entry 65 65 256)],
                out := [.outByte 0x04#8] }

/-- DONE after the empty stream (S3). -/
def afterEmpty : State :=
  { State.reset with state := .done, out := [.outByte 0xFF#8, .outByte 0xF0#8, .outPersist] }

/-- A faulted core: BYTE 'B' was offered in DONE (P5). -/
def faultedState : State := { afterEmpty with fault := 2#2, faultInfo := 0x0142#16 }

/-- A state no run reaches: the packer's count is past 20. -/
def overfull : State := { afterA with cnt := 21#5 }

/-- The first `k` slots hold the pair (0, 0). -/
def filled (k : Nat) : Memory := (List.range k).map fun i => (i, entry 0 0 256)

/-- A table no run reaches: every slot holds the pair (0, 0). -/
@[irreducible] def fullTable : Memory := filled 5021

/-- RUNNING with the code space exhausted. -/
def exhausted : State := { afterAA with next := 4095#12 }

/-! ### Well-formedness and encodings -/

theorem test_ill_formed_operands :
    Instr.wellFormed (.str 255#12) = false ∧ Instr.wellFormed (.str 4095#12) = false ∧
    Instr.wellFormed (.hash 4095#12 0#8) = false ∧ Instr.wellFormed (.probe 4095#12 0#8) = false ∧
    Instr.wellFormed (.offset 5021#13) = false ∧ Instr.wellFormed (.insert 5021#13 0#12 0#8 256#12) = false ∧
    Instr.wellFormed (.insert 0#13 4095#12 0#8 256#12) = false ∧ Instr.wellFormed (.insert 0#13 0#12 0#8 255#12) = false ∧
    Instr.wellFormed (.insert 0#13 0#12 0#8 4095#12) = false := by decide

theorem test_well_formed_boundaries :
    Instr.wellFormed (.str 256#12) = true ∧ Instr.wellFormed (.str 4094#12) = true ∧
    Instr.wellFormed (.hash 4094#12 255#8) = true ∧ Instr.wellFormed (.offset 5020#13) = true ∧
    Instr.wellFormed (.insert 5020#13 4094#12 255#8 4094#12) = true := by decide

/-- 30_encoding.md R71: each command's word, written out bit by bit. -/
theorem test_decode_commands :
    decode 0b0000000000#10 = .command .init ∧ decode 0b0101100001#10 = .command (.byte 0x61#8) ∧
    decode 0b1000000000#10 = .command .endOfInput ∧ decode 0b1110000001#10 = .command (.abort 0x81#8) := by decide

/-- 30_encoding.md R72: the edges of the reserved groups. -/
theorem test_decode_reserved :
    decode 0x001#10 = .reservedInit 0x01#8 ∧ decode 0x0FF#10 = .reservedInit 0xFF#8 ∧
    decode 0x201#10 = .reservedEnd 0x01#8 ∧ decode 0x2FF#10 = .reservedEnd 0xFF#8 ∧
    decode 0x100#10 = .command (.byte 0x00#8) ∧ decode 0x1FF#10 = .command (.byte 0xFF#8) := by decide

/-- 30_encoding.md R73: the edges of the three code classes. -/
theorem test_decode_codes :
    decodeCode 0b000011111111#12 = .lit 0xFF#8 ∧ decodeCode 0b000100000000#12 = .str 256#12 ∧
    decodeCode 0b111111111110#12 = .str 4094#12 ∧ decodeCode 0b111111111111#12 = .eos := by decide

/-- 30_encoding.md R71, R79: the programs' encodings (95_test_vectors.md P1, V-E7). -/
theorem test_encode :
    encode (.byte 0x41#8) = .command 0x141#10 ∧ encode .endOfInput = .command 0x200#10 ∧
    encode (.abort 0x01#8) = .command 0x301#10 ∧ encode (.hash 65#12 65#8) = .internal := by decide

/-- V-D6: the bit images of two slots. -/
theorem test_slot_image :
    encodeSlot (entry 65 65 256) = 0x104141100#33 ∧ encodeSlot (entry 256 16 257) = 0x110010101#33 ∧
    decodeSlot 0x104141100#33 = some (entry 65 65 256) ∧ decodeSlot 0x004141100#33 = none := by decide

theorem test_decode_table_word :
    decodeTableWord 16 0x000 = some .init ∧ decodeTableWord 16 0x1FF = some (.byte 0xFF#8) ∧
    decodeTableWord 16 0x200 = some .endOfInput ∧ decodeTableWord 16 0x205 = none ∧
    decodeTableWord 16 0xFFF = some .eos ∧ decodeTableWord 12 0x041 = some (.lit 0x41#8) := by decide

/-! ### The dictionary table -/

/-- 95_test_vectors.md 2.1: the colliding pairs, the largest index and index 0. -/
theorem test_hash :
    hashIndex 0x041#12 0x41#8 = 1105 ∧ hashIndex 0x051#12 0x40#8 = 1105 ∧ hashIndex 0x00F#12 0xFF#8 = 4095 ∧
    hashIndex 0x410#12 0x41#8 = 0 := by decide

theorem test_exec_hash :
    (nextState (exec (.hash 0xFFE#12 0xFF#8) State.reset)).map (·.idx) = some (some 14#13) := by decide

/-- 95_test_vectors.md 2.1: the offsets and the wrap boundary 2510 / 2511. -/
theorem test_offset :
    probeOffset 1105 = 3916 ∧ probeOffset 4095 = 926 ∧ probeOffset 0 = 1 ∧ nextIndex (probeOffset 2510) 2510 = 5020 ∧
    nextIndex (probeOffset 2511) 2511 = 1 ∧ nextIndex 1 0 = 5020 := by decide

theorem test_exec_offset :
    (nextState (exec (.offset 1#13) State.reset)).map (·.off) = some (some 5020#13) := by decide

/-- V-D3: a one-field match later on the walk is no hit. -/
theorem test_probe_needs_both_fields :
    probe [(1105, entry 65 65 256), (3063, entry 0xF7 0xB0 257)] 0xFE7#12 0x41#8 = .miss 4168 2 := by decide

/-- V-D2, V-D4: a hit, and a collision chain. -/
theorem test_exec_probe :
    (nextState (exec (.probe 0x061#12 0x43#8)
      { State.reset with table := [(1105, entry 65 65 256), (2210, entry 81 64 258)] })).map
        (fun t => (t.idx, t.off, t.n, hit t)) = some (some 3315#13, some 3916#13, some 2#13, false) ∧
    (nextState (exec (.probe 81#12 64#8)
      { State.reset with table := [(1105, entry 65 65 256), (2210, entry 81 64 258)] })).map
        (fun t => (t.idx, hit t)) = some (some 2210#13, true) := by decide

/-- 40_dictionary.md R105, example, in front of a later slot. -/
theorem test_exec_insert :
    (nextState (exec (.insert 1105#13 65#12 65#8 256#12) { State.reset with table := [(2210, entry 81 64 258)] })).map
      (·.table) = some [(1105, entry 65 65 256), (2210, entry 81 64 258)] := by decide

/-! ### The bit packer -/

/-- 95_test_vectors.md 2.3, rows 1 and 2. -/
theorem test_exec_emit :
    (nextState (exec (.emit 0x041#12) State.reset)).map (fun t => (t.out, t.acc, t.cnt)) =
      some ([.outByte 0x04#8], 0x10000000#32, 4#5) ∧
    (nextState (exec (.emit 0x100#12) { State.reset with acc := 0x10000000#32, cnt := 4#5 })).map
      (fun t => (t.out, t.acc, t.cnt)) = some ([.outByte 0x11#8, .outByte 0x00#8], 0#32, 0#5) := by decide

/-- 95_test_vectors.md 2.3, rows 5 and 9. -/
theorem test_exec_flush :
    (nextState (exec .flush State.reset)).map (fun t => (t.out, t.cnt)) = some ([.outPersist], 0#5) ∧
    (nextState (exec .flush { State.reset with acc := 0x30000000#32, cnt := 4#5 })).map (fun t => (t.out, t.acc, t.cnt)) =
      some ([.outByte 0x30#8, .outPersist], 0#32, 0#5) := by decide

/-- 95_test_vectors.md 2.3, rows 10 and 11: a zero code takes its 12 bits like any other. -/
theorem test_exec_lit :
    (nextState (exec (.lit 0x00#8) State.reset)).map (fun t => (t.out, t.cnt)) = some ([.outByte 0x00#8], 4#5) ∧
    (nextState (exec (.lit 0x00#8) { State.reset with cnt := 4#5 })).map (fun t => (t.out, t.cnt)) =
      some ([.outByte 0x00#8, .outByte 0x00#8], 0#5) := by decide

/-- 95_test_vectors.md 2.3, row 16. -/
theorem test_exec_str :
    (nextState (exec (.str 0xFFE#12) State.reset)).map (fun t => (t.out, t.acc, t.cnt)) =
      some ([.outByte 0xFF#8], 0xE0000000#32, 4#5) := by decide

/-- 95_test_vectors.md 2.3, row 17. -/
theorem test_exec_eos :
    (nextState (exec .eos { State.reset with acc := 0xE0000000#32, cnt := 4#5 })).map (fun t => (t.out, t.cnt)) =
      some ([.outByte 0xEF#8, .outByte 0xFF#8], 0#5) := by decide

/-! ### Commands and steps -/

/-- 41_encoder_loop.md R132; V-E6: INIT in RUNNING raises PROTOCOL with word 0. -/
theorem test_exec_init :
    (nextState (exec .init afterEmpty)).map (fun t => (t.state, t.next, t.out)) =
      some (.start, 256#12, [.outByte 0xFF#8, .outByte 0xF0#8, .outPersist]) ∧
    (nextState (exec .init afterA)).map (fun t => (t.state, t.fault, t.faultInfo, t.cur)) =
      some (.running, 2#2, 0#16, some 65#12) := by decide

/-- S1, step 2: the miss on (65, 65). -/
theorem test_exec_byte_miss : nextState (exec (.byte 0x41#8) afterA) = some afterAA := by decide

/-- S1, step 3: the hit on (65, 65). -/
theorem test_exec_byte_hit :
    nextState (exec (.byte 0x41#8) afterAA) = some { afterAA with cur := some 256#12 } := by decide

/-- S3: the empty input; V-E3: four bytes from RUNNING with 4 bits pending. -/
theorem test_exec_end :
    nextState (exec .endOfInput State.reset) = some afterEmpty ∧
    (nextState (exec .endOfInput { afterAA with cur := some 0x042#12, out := [] })).map (fun t => (t.out, t.state)) =
      some ([.outByte 0x10#8, .outByte 0x42#8, .outByte 0xFF#8, .outByte 0xF0#8, .outPersist], .done) := by decide

/-- V-E7: ABORT 0x01 writes nothing but the fault registers. -/
theorem test_exec_abort :
    nextState (exec (.abort 0x01#8) afterAA) = some { afterAA with fault := 1#2, faultInfo := 0x0301#16 } := by decide

/-- V-E6: the reserved word 0x205; P5: a command offered to a faulted core. -/
theorem test_step_reserved_and_faulted :
    nextState (step (State.reset.withFetchWord 16 0x205)) =
      some { State.reset with fault := 2#2, faultInfo := 0x0205#16 } ∧
    nextState (step (faultedState.withFetchWord 16 0x000)) = some faultedState := by decide

/-- P1, first command; and reset leaves a fault (70_reset_and_hazards.md R220). -/
theorem test_step_command_and_reset :
    nextState (step (State.reset.withFetchWord 16 0x141)) = some afterA ∧
    (nextState (step { faultedState with input := [.reset, .command endWord] })).map (fun t => (t.fault, t.state, t.input)) =
      some (0#2, .start, [.command endWord]) := by decide

/-! ### Witnesses: for each statement with hypotheses, a state and operands that meet them -/

/-- The state after "AA" meets the invariant. -/
theorem afterAA_inv : Inv afterAA where
  tableWf := by decide
  nextRange := by decide
  codes := by decide
  olderPrefix := by decide
  found := by decide
  cntCases := by decide
  accClear := by decide
  startFresh := fun h => by cases h
  runningCur := fun _ => ⟨65#12, rfl, by decide⟩
  doneDrained := fun h => by cases h
  notFlushing := fun h => by cases h
  scratchEmpty := ⟨rfl, rfl, rfl⟩
  infoClear := fun _ => rfl

/-- A core at the start of a run that has already written the empty stream meets the invariant. -/
theorem restarted_inv : Inv (freshRun afterEmpty) where
  tableWf := by decide
  nextRange := by decide
  codes := by decide
  olderPrefix := by decide
  found := by decide
  cntCases := by decide
  accClear := by decide
  startFresh := fun _ => by decide
  runningCur := fun h => by cases h
  doneDrained := fun h => by cases h
  notFlushing := fun h => by cases h
  scratchEmpty := ⟨rfl, rfl, rfl⟩
  infoClear := fun _ => rfl

/-- The filled slots are occupied. -/
theorem tableRead_filled {k i : Nat} (hk : k ≤ 5021) (h : i < k) : tableRead (filled k) i = some (entry 0 0 256) := by
  have wf : (filled k).wf := by
    refine ⟨?_, ?_⟩
    · simpa [filled, Function.comp_def] using List.pairwise_lt_range
    · intro x hx
      obtain ⟨j, hj, rfl⟩ := List.mem_map.1 hx
      exact Nat.lt_of_lt_of_le (List.mem_range.1 hj) hk
  exact (tableRead_eq_some_iff wf i _).2 (List.mem_map.2 ⟨i, List.mem_range.2 h, rfl⟩)

/-- Every slot of the full table is occupied by the pair (0, 0). -/
theorem tableRead_fullTable {i : Nat} (h : i < 5021) : tableRead fullTable i = some (entry 0 0 256) := by
  unfold fullTable
  exact tableRead_filled (Nat.le_refl _) h

/-- RUNNING on the full table. -/
def clogged : State := { afterA with table := fullTable }

theorem clogged_table : clogged.table = fullTable := rfl

/-- In the full table the walk of another pair is exhausted (40_dictionary.md R106). -/
theorem probe_fullTable : probe fullTable 65#12 65#8 = .overflow := by
  rcases h : probe fullTable 65#12 65#8 with ⟨idx, n, e⟩ | ⟨idx, n⟩ | _
  · obtain ⟨-, rfl, hr, hp, -⟩ := probe_hit h
    rw [tableRead_fullTable (walkSlot_lt _ _ _)] at hr
    cases hr
    exact absurd hp (by decide)
  · obtain ⟨-, -, hlt, hr⟩ := probe_miss h
    rw [tableRead_fullTable hlt] at hr
    cases hr
  · rfl

theorem witness_DecodeInvertsEncode :
    (Instr.str 256#12).wellFormed = true ∧ (Instr.str 256#12).format ≠ .internal ∧
    decodeEncoding (.command 0x3FF#10) = some (.abort 0xFF#8) := by decide

theorem witness_SlotLayoutRoundTrips : (0x0FFFFFFFF#33).extractLsb' 32 1 = 0#1 := by decide

theorem witness_StepRunsDecodedCommand :
    { afterAA with input := [.command 0x141#10] }.input = [.command 0x141#10] ∧
    decode 0x141#10 = .command (.byte 0x41#8) := by decide

theorem witness_IdleStepHoldsState : afterAA.input = [] := rfl

theorem witness_ResetAndInitLeaveFreshState :
    { afterAA with input := [.reset] }.input = [.reset] ∧ State.reset.fault = 0#2 ∧ State.reset.state = .start ∧
    afterEmpty.fault = 0#2 ∧ afterEmpty.state = .done := by decide

theorem witness_FaultedCoreAcceptsNothing :
    faultedState.fault ≠ 0#2 ∧
    { faultedState with input := [.command 0x000#10] }.input = [.command 0x000#10] ∧
    (nextState (step { faultedState with input := [.reset] })).map (·.fault) = some 0#2 := by decide

theorem witness_ReservedWordsRaiseProtocol :
    afterEmpty.fault = 0#2 ∧ (0x001#10 ≤ 0x0FF#10 ∧ 0x0FF#10 ≤ 0x0FF#10) ∧ (0x201#10 ≤ 0x201#10 ∧ 0x201#10 ≤ 0x2FF#10) ∧
    decode 0x1FF#10 = .command (.byte 0xFF#8) ∧ protocolIn (.byte 0xFF#8) afterEmpty.state = true := by decide

theorem witness_TransitionTable :
    afterA.fault = 0#2 ∧ protocolIn .init afterA.state = true ∧ encode .init = .command 0x000#10 ∧
    (afterEmpty.fault = 0#2 ∧ afterEmpty.state = .done) ∧ (State.reset.fault = 0#2 ∧ State.reset.state = .start) ∧
    (afterA.state = .running ∧ (nextState (exec (.byte 0#8) afterA)).isSome ∧
      (nextState (exec .endOfInput afterA)).isSome) := by decide

theorem witness_FirstByteBecomesCurrentCode : State.reset.fault = 0#2 ∧ State.reset.state = .start := by decide

theorem witness_ByteStepInRunning :
    (afterA.fault = 0#2 ∧ afterA.state = .running ∧ afterA.cur = some 65#12) ∧
    probe afterAA.table 65#12 65#8 = .hit 1105 0 (entry 65 65 256) ∧
    (probe afterA.table 65#12 65#8 = .miss 1105 0 ∧ afterA.cnt = 0#5 ∧ afterA.acc = 0#32 ∧ afterA.next.toNat ≤ 4094) ∧
    (probe afterAA.table 65#12 66#8 = .miss 1121 0 ∧ afterAA.cnt = 4#5 ∧ afterAA.acc <<< 4 = 0#32) ∧
    (probe exhausted.table 65#12 66#8 = .miss 1121 0 ∧ ¬ exhausted.next.toNat ≤ 4094) ∧
    (nextState (exec (.emit 65#12) afterAA)).isSome := by decide

theorem witness_ByteStepInRunning_overflow :
    clogged.fault = 0#2 ∧ clogged.state = .running ∧ clogged.cur = some 65#12 ∧
    probe clogged.table 65#12 65#8 = .overflow :=
  ⟨rfl, rfl, rfl, by rw [clogged_table]; exact probe_fullTable⟩

theorem witness_EndEmitsPendingAndSentinel :
    (State.reset.fault = 0#2 ∧ State.reset.state = .start ∧ State.reset.cnt = 0#5 ∧ State.reset.acc = 0#32) ∧
    (afterA.fault = 0#2 ∧ afterA.state = .running ∧ afterA.cur = some 65#12 ∧ afterA.cnt = 0#5 ∧ afterA.acc = 0#32) ∧
    (afterAA.fault = 0#2 ∧ afterAA.state = .running ∧ afterAA.cur = some 65#12 ∧ afterAA.cnt = 4#5 ∧
      afterAA.acc <<< 4 = 0#32) ∧ (afterEmpty.fault = 0#2 ∧ afterEmpty.state = .done) ∧
    (nextState (exec (.emit 65#12) afterAA)).isSome ∧ (nextState (exec (.emit 4095#12) State.reset)).isSome ∧
    (nextState (exec .flush afterAA)).isSome := by decide

theorem witness_AbortRecordsHostFailure : afterEmpty.fault = 0#2 := rfl

theorem witness_ExhaustedDictionaryKeepsEncoding :
    exhausted.fault = 0#2 ∧ exhausted.state = .running ∧ exhausted.cur = some 65#12 ∧ exhausted.cnt.toNat ≤ 7 ∧
    4094 < exhausted.next.toNat ∧ probe exhausted.table 65#12 65#8 ≠ .overflow ∧
    probe exhausted.table 65#12 66#8 ≠ .overflow := by decide

theorem witness_RaiseRecordsFirstCause : afterA.fault = 0#2 ∧ faultedState.fault ≠ 0#2 := by decide

theorem witness_FaultingStepWritesOnlyFaultRegisters :
    afterA.fault = 0#2 ∧ (nextState (exec .init afterA)).map (·.fault) = some 2#2 := by decide

theorem witness_CauseCodesAndInfo :
    afterA.fault = 0#2 ∧ (nextState (exec (.abort 0#8) afterA)).map (·.fault) = some 1#2 ∧
    (nextState (exec .init afterA)).map (·.fault) = some 2#2 := by decide

theorem witness_CauseCodesAndInfo_overflow :
    clogged.fault = 0#2 ∧ exec (.probe 65#12 65#8) clogged = .next (raiseProbeOverflow 65#12 65#8 clogged) := by
  refine ⟨rfl, ?_⟩
  have h : probe clogged.table 65#12 65#8 = .overflow := by rw [clogged_table]; exact probe_fullTable
  simp only [exec, execProbe, h]
  exact whenHealthy_of_healthy rfl _

theorem witness_ProbeWalkVisitsEverySlotOnce :
    hashIndex 65#12 65#8 ≠ 0 ∧ hashIndex 0x100#12 0x10#8 = 0 ∧ afterAA.table.wf ∧ tableRead afterAA.table 0 = none ∧
    (∃ x ∈ afterAA.table, x.2.pre = 65#12 ∧ x.2.byte = 65#8) ∧ Inv afterAA :=
  ⟨by decide, by decide, by decide, by decide, by decide, afterAA_inv⟩

theorem witness_InsertMakesPairFound :
    afterAA.fault = 0#2 ∧ afterAA.table.wf ∧ probe afterAA.table 81#12 64#8 = .miss (2210#13).toNat 1 ∧
    probe afterAA.table 65#12 65#8 = .hit 1105 0 (entry 65 65 256) := by decide

theorem witness_StoredPairsAreFound :
    Inv { afterAA with input := [.command 0x142#10] } ∧
    (nextState (step { afterAA with input := [.command 0x142#10] })).map (·.state) = some .running :=
  ⟨inv_set_input afterAA_inv _, by decide⟩

theorem witness_InternalTableOperationsComplete :
    afterAA.fault = 0#2 ∧ (5020#13).toNat < 5021 ∧ probe afterAA.table 65#12 66#8 = .miss 1121 0 ∧
    probe afterAA.table 65#12 65#8 = .hit 1105 0 (entry 65 65 256) := by decide

theorem witness_FlagsAreFunctionsOfState :
    afterAA.fault = 0#2 ∧ (nextState (exec (.probe 65#12 65#8) afterAA)).map (fun t => (t.fault, hit t)) =
      some (0#2, true) := by decide

theorem witness_EmitAppendsCodeBits :
    afterAA.fault = 0#2 ∧ afterAA.cnt.toNat ≤ 7 ∧ afterAA.acc <<< afterAA.cnt.toNat = 0#32 := by decide

theorem witness_FlushWritesPartialByte :
    (afterA.fault = 0#2 ∧ afterA.cnt.toNat = 0 ∧ afterA.acc <<< afterA.cnt.toNat = 0#32) ∧
    (afterAA.fault = 0#2 ∧ 0 < afterAA.cnt.toNat ∧ afterAA.cnt.toNat ≤ 7 ∧ afterAA.acc <<< afterAA.cnt.toNat = 0#32) := by
  decide

theorem witness_OutputCodesArePacked :
    encode (.lit 0xFF#8) = .code 0x0FF#12 ∧ encode (.str 0x100#12) = .code 0x100#12 ∧ encode .eos = .code 0xFFF#12 ∧
    afterAA.fault = 0#2 ∧ afterAA.cnt.toNat ≤ 7 ∧ afterAA.acc <<< afterAA.cnt.toNat = 0#32 := by decide

theorem witness_StopsByName :
    overfull.fault = 0#2 ∧ 5021 ≤ (5021#13).toNat ∧ encode .eos = .code 0xFFF#12 ∧ 20 < overfull.cnt.toNat ∧
    overfull.state = .running ∧ probe overfull.table (readCur overfull) 65#8 = .miss 1105 0 ∧
    { afterA with cnt := 20#5 }.cnt.toNat ≤ 20 := by decide

theorem witness_InternalOperationFrames :
    (nextState (exec (.probe 65#12 65#8) afterAA)).isSome ∧ (nextState (exec (.insert 0#13 0#12 0#8 256#12) afterAA)).isSome ∧
    (nextState (exec .flush afterAA)).isSome := by decide

theorem witness_CommandFrames :
    (nextState (exec .init afterEmpty)).isSome ∧ (nextState (exec (.byte 65#8) afterAA)).isSome ∧
    (nextState (exec .endOfInput afterAA)).isSome ∧ (nextState (exec (.abort 0#8) afterAA)).isSome ∧
    afterAA.state = .running ∧ probe afterAA.table (readCur afterAA) 65#8 = .hit 1105 0 (entry 65 65 256) := by decide

theorem witness_TableFrame :
    afterAA.table.wf ∧ (nextState (exec (.byte 66#8) afterAA)).isSome ∧ afterAA.fault = 0#2 ∧
    storedSlot (.byte 66#8) afterAA = some 1121 ∧ (nextState (exec .init afterEmpty)).map (·.fault) = some 0#2 ∧
    (nextState (exec .init afterA)).map (·.fault) = some 2#2 ∧
    (nextState (exec (.insert 0#13 0#12 0#8 256#12) afterAA)).isSome := by decide

theorem witness_OutputIsAppendOnly :
    (nextState (exec .endOfInput afterAA)).map (fun t => (t.fault, t.out.contains .outPersist)) = some (0#2, true) ∧
    (nextState (exec .init afterEmpty)).isSome ∧ (nextState (exec (.byte 0#8) faultedState)).isSome := by decide

theorem witness_StepKeepsInvariant :
    Inv { afterAA with input := [.command 0x142#10] } ∧
    (nextState (step { afterAA with input := [.command 0x142#10] })).isSome :=
  ⟨inv_set_input afterAA_inv _, by decide⟩

theorem witness_ReachableStatesMeetR37 : Reachable { State.reset with input := [.command 0x141#10] } :=
  ⟨[.command 0x141#10], 0, rfl⟩

theorem witness_StepNeverStopsNorOverflows : Inv { afterAA with input := [.command 0x142#10] } ∧ afterAA.fault ≠ 3#2 :=
  ⟨inv_set_input afterAA_inv _, by decide⟩

theorem witness_InstructionsKeepTableCanonical :
    afterAA.table.wf ∧ (nextState (exec (.insert 5020#13 0#12 0#8 257#12) afterAA)).isSome := by decide

theorem witness_EntriesAreImmutable :
    Inv { afterAA with input := [.command 0x142#10] } ∧
    (nextState (step { afterAA with input := [.command 0x142#10] })).isSome ∧
    tableRead afterAA.table 1105 = some (entry 65 65 256) :=
  ⟨inv_set_input afterAA_inv _, by decide, by decide⟩

theorem witness_NoValueIsNeverRead :
    Inv { afterAA with input := [.command 0x200#10] } ∧
    (nextState (step { afterAA with input := [.command 0x200#10] })).isSome :=
  ⟨inv_set_input afterAA_inv _, by decide⟩

theorem witness_CurrentCodeSpellsItsMatch :
    Inv { afterAA with input := [] } ∧ afterAA.fault = 0#2 ∧ afterAA.state = .running ∧ afterAA.cur = some 65#12 ∧
    (nextState (exec (.byte 65#8) afterAA)).isSome ∧ (nextState (exec (.byte 66#8) afterAA)).isSome :=
  ⟨inv_set_input afterAA_inv _, by decide⟩

theorem witness_EmittedCodesSpellTheInput :
    Inv { freshRun afterEmpty with input := [65#8, 65#8].map (fun b => .command (byteWord b)) ++ [.reset] } ∧
    (freshRun afterEmpty).fault = 0#2 ∧ (freshRun afterEmpty).state = .start ∧ [65#8, 65#8] ≠ [] :=
  ⟨inv_set_input restarted_inv _, by decide⟩

theorem witness_RunEqualsMapEncoder :
    Inv { freshRun afterEmpty with input := streamActions [65#8] ++ [.reset] } ∧ (freshRun afterEmpty).fault = 0#2 ∧
    (freshRun afterEmpty).state = .start :=
  ⟨inv_set_input restarted_inv _, by decide⟩

theorem witness_RunsAreIndependentOfHistory :
    Inv { freshRun afterEmpty with input := streamActions [65#8] ++ [.reset] } ∧
    Inv { freshRun afterEmpty with input := streamActions [65#8] ++ [] } ∧ (freshRun afterEmpty).fault = 0#2 ∧
    (freshRun afterEmpty).state = .start ∧
    (nextState (Sys2Proof.core.run 2 { freshRun afterEmpty with input := streamActions [65#8] ++ [.reset] })).isSome :=
  ⟨inv_set_input restarted_inv _, inv_set_input restarted_inv _, by decide⟩

end Sys2Proof.Tests
end

section
/-! The statements of 00_scope.md: the configuration and the step. -/

namespace Sys2Proof.Config

/-- K4 of 00_scope.md R6 for the reference configuration. -/
theorem tableSize_prime : tableSize.Prime := by
  norm_num [tableSize]

theorem reference_dictCapacity : reference.dictCapacity = dictCapacity := by decide

theorem dictCapacity_eq : dictCapacity = 3839 := by decide

/-- 00_scope.md R5, R6: K1, K3, K4 and K5, one by one. -/
theorem reference_legal : reference.legal := by
  refine ⟨?bits, ?capacity, tableSize_prime, ?accumulator⟩
  case bits => decide
  case capacity =>
    rw [reference_dictCapacity, dictCapacity_eq]
    decide
  case accumulator => decide

/-- K3 of 00_scope.md R6: a table with no slot to spare over the dictionary's capacity is no configuration. -/
theorem Params.not_legal_of_tableSize_le {c : Params} (h : c.tableSize ≤ c.dictCapacity) : ¬ c.legal := by
  rintro ⟨-, hcap, -⟩
  exact absurd hcap (Nat.not_lt.2 h)

end Sys2Proof.Config

namespace Sys2Proof.Machine

theorem nextAction_of_input {s : State} {a : HostAction} {rest : List HostAction} (h : s.input = a :: rest) :
    nextAction s = some (a, { s with input := rest }) := by
  simp only [nextAction, h]

/-- A step with a command word on offer presents that word to the core (00_scope.md R8, 10_state.md R34). -/
theorem step_of_command {s : State} {w : CmdWord} {rest : List HostAction} (h : s.input = .command w :: rest) :
    step s = acceptCommand w { s with input := rest } := by
  simp only [step, takeAction, nextAction_of_input h]

theorem acceptCommand_of_decode {w : CmdWord} {i : Instr} (h : decode w = .command i) (s : State) :
    acceptCommand w s = exec i s := by
  simp only [acceptCommand, h]

end Sys2Proof.Machine

namespace Sys2Proof.Proofs

open Sys2Proof.Config Sys2Proof.Machine

/-- Settles O1: the reference record meets K1, K3, K4 and K5, and the record of V-D7, with capacity 255 and 7 slots, breaks K3. -/
theorem referenceConfigurationIsLegal : Obligations.ReferenceConfigurationIsLegal := by
  refine ⟨reference_legal, ?maxValue, ?maxCode, reference_dictCapacity, dictCapacity_eq, rfl, rfl, rfl, rfl, ?vD7⟩
  case maxValue => decide
  case maxCode => decide
  case vD7 => exact Params.not_legal_of_tableSize_le (by decide)

/-- Settles O6: the step takes the offered word from the host's list, and the core executes what the word decodes to. -/
theorem stepRunsDecodedCommand : Obligations.StepRunsDecodedCommand := by
  intro s w rest i hin hdec
  calc step s = acceptCommand w { s with input := rest } := step_of_command hin
    _ = exec i { s with input := rest } := acceptCommand_of_decode hdec _

end Sys2Proof.Proofs
end

section
/-! Words: which command a word decodes to, and the fields of a slot (30_encoding.md R70, R71, R75). -/

namespace Sys2Proof

/-- A command word is its two fields put together (30_encoding.md R70). -/
theorem cmdWord_cmdOp_cmdData (w : CmdWord) : cmdWord (cmdOp w) (cmdData w) = w :=
  BitVec.extractLsb'_append_extractLsb' (w := 2) (len := 8) (x := w)

theorem eq_cmdWord_of_cmdOp {w : CmdWord} {op : BitVec 2} (h : (cmdOp w).toNat = op.toNat) :
    w = cmdWord op (cmdData w) := by
  rw [← BitVec.eq_of_toNat_eq h, cmdWord_cmdOp_cmdData]

/-- A word decodes to a command only if it is the command's encoding (30_encoding.md R71). -/
theorem encode_of_decode {w : CmdWord} {i : Instr} (h : decode w = .command i) : encode i = .command w := by
  unfold decode at h
  split at h
  · case h_1 hop =>
    split at h <;> cases h
    case isTrue hdata => rw [eq_cmdWord_of_cmdOp (op := 0#2) hop, hdata]; rfl
  · case h_2 hop => cases h; exact congrArg _ (eq_cmdWord_of_cmdOp (op := 1#2) hop).symm
  · case h_3 hop =>
    split at h <;> cases h
    case isTrue hdata => rw [eq_cmdWord_of_cmdOp (op := 2#2) hop, hdata]; rfl
  · case h_4 h0 h1 h2 =>
    cases h
    have hop : (cmdOp w).toNat = (3#2).toNat := by
      have hlt := (cmdOp w).isLt
      have hne : (cmdOp w).toNat ≠ 0 ∧ (cmdOp w).toNat ≠ 1 ∧ (cmdOp w).toNat ≠ 2 := ⟨h0, h1, h2⟩
      change (cmdOp w).toNat = 3
      omega
    exact congrArg _ (eq_cmdWord_of_cmdOp hop).symm

theorem encodeSlot_valid (e : Entry) : (encodeSlot e).extractLsb' 32 1 = 1#1 := by
  unfold encodeSlot
  rw [BitVec.extractLsb'_append_eq_of_le (by decide), BitVec.extractLsb'_append_eq_of_le (by decide),
    BitVec.extractLsb'_append_eq_of_le (by decide)]
  rfl

theorem encodeSlot_pre (e : Entry) : (encodeSlot e).extractLsb' 20 12 = e.pre := by
  unfold encodeSlot
  rw [BitVec.extractLsb'_append_eq_of_le (by decide), BitVec.extractLsb'_append_eq_of_le (by decide)]
  exact BitVec.extractLsb'_append_eq_right

theorem encodeSlot_byte (e : Entry) : (encodeSlot e).extractLsb' 12 8 = e.byte := by
  unfold encodeSlot
  rw [BitVec.extractLsb'_append_eq_of_le (by decide)]
  exact BitVec.extractLsb'_append_eq_right

theorem encodeSlot_code (e : Entry) : (encodeSlot e).extractLsb' 0 12 = e.code :=
  BitVec.extractLsb'_append_eq_right

/-- The decoder tests the `valid` bit (30_encoding.md R75). -/
theorem getLsbD_eq_of_extractLsb' {w : BitVec 33} {v : BitVec 1} (h : w.extractLsb' 32 1 = v) :
    w.getLsbD 32 = v.getLsbD 0 := by
  simp [← h]

theorem decodeSlot_encodeSlot (e : Entry) : decodeSlot (encodeSlot e) = some e := by
  have hvalid : (encodeSlot e).getLsbD 32 = true := getLsbD_eq_of_extractLsb' (encodeSlot_valid e)
  rw [decodeSlot, if_pos hvalid, encodeSlot_pre, encodeSlot_byte, encodeSlot_code]

theorem decodeSlot_of_not_valid {w : BitVec 33} (h : w.extractLsb' 32 1 = 0#1) : decodeSlot w = none := by
  have hvalid : w.getLsbD 32 = false := getLsbD_eq_of_extractLsb' h
  rw [decodeSlot, hvalid]
  rfl

end Sys2Proof
end

section
/-! The bit buffer between steps (10_state.md R37 I-d; 42_bit_packer.md R171 to R174). -/

namespace Sys2Proof.Machine

/-- I-d of 10_state.md R37 with P-b of 42_bit_packer.md R174: 0 or 4 bits are pending, with zeros below them. -/
def BufferOk (s : State) : Prop := (s.cnt = 0#5 ∨ s.cnt = 4#5) ∧ s.acc <<< s.cnt.toNat = 0#32

theorem Inv.bufferOk {s : State} (h : Inv s) : BufferOk s := ⟨h.cntCases, h.accClear⟩

/-- A code placed below `k` pending bits ends 12 bits further down. -/
theorem placeCode_shiftLeft (c : Code) {k : Nat} (hk : k ≤ 20) : placeCode c k <<< (k + 12) = 0#32 := by
  rw [placeCode, ← BitVec.shiftLeft_add, show 20 - k + (k + 12) = 32 by omega]
  exact BitVec.shiftLeft_eq_zero (Nat.le_refl 32)

/-- After a push the bits below the pending ones are 0 again. -/
theorem pushed_clear {acc : BitVec 32} {k : Nat} (c : Code) (hk : k ≤ 20) (h : acc <<< k = 0#32) :
    (acc ||| placeCode c k) <<< (k + 12) = 0#32 := by
  rw [BitVec.shiftLeft_or_distrib, placeCode_shiftLeft c hk, BitVec.shiftLeft_add, h]
  simp

/-- EMIT into an empty bit buffer outputs one byte (42_bit_packer.md R171 (b)). -/
theorem emitted_of_cnt_zero {s : State} (c : Code) (h : s.cnt = 0#5) : emitted c s = drainByte (pushBits c s) := by
  simp [emitted, drainLoop, h]

/-- EMIT after four pending bits outputs two bytes (42_bit_packer.md R171 (b)). -/
theorem emitted_of_cnt_four {s : State} (c : Code) (h : s.cnt = 4#5) :
    emitted c s = drainByte (drainByte (pushBits c s)) := by
  simp [emitted, drainLoop, h]

theorem BufferOk.emitted {s : State} (h : BufferOk s) (c : Code) : BufferOk (emitted c s) := by
  obtain ⟨h0 | h4, hacc⟩ := h
  · have hclear := pushed_clear c (k := 0) (by decide) (by simpa [h0] using hacc)
    rw [emitted_of_cnt_zero c h0]
    refine ⟨Or.inr (by simp [h0]), ?_⟩
    simpa [h0, ← BitVec.shiftLeft_add] using hclear
  · have hclear := pushed_clear c (k := 4) (by decide) (by simpa [h4] using hacc)
    rw [emitted_of_cnt_four c h4]
    refine ⟨Or.inl (by simp [h4]), ?_⟩
    simpa [h4, ← BitVec.shiftLeft_add] using hclear

/-- FLUSH leaves the accumulator 0 (42_bit_packer.md R173). -/
theorem BufferOk.flush_acc {s : State} (h : BufferOk s) : (flush s).acc = 0#32 := by
  obtain ⟨h0 | h4, hacc⟩ := h
  · simpa [flush, h0] using hacc
  · have h8 : s.acc <<< 8 = 0#32 := by
      rw [show 8 = 4 + 4 from rfl, BitVec.shiftLeft_add, show s.acc <<< 4 = 0#32 by simpa [h4] using hacc]
      rfl
    simpa [flush, h4] using h8

theorem finishRun_acc {s t : State} (hb : BufferOk s) (h : finishRun s = .next t) : t.acc = 0#32 := by
  obtain ⟨-, rfl⟩ := finishRun_eq_next_iff.1 h
  exact BufferOk.flush_acc (s := { emitted eosCode s with state := .flushing }) (hb.emitted eosCode)

/-- END leaves the accumulator 0 where it is legal (41_encoder_loop.md R135; 10_state.md R37 I-f). -/
theorem execEndOfInput_acc {s t : State} (h0 : s.fault = 0#2) (hb : BufferOk s)
    (hlegal : protocolIn .endOfInput s.state = false) (h : exec .endOfInput s = .next t) : t.acc = 0#32 := by
  simp only [exec, execEndOfInput, whenHealthy_of_healthy h0] at h
  cases hs : s.state with
  | start =>
    simp only [hs] at h
    exact finishRun_acc hb h
  | running =>
    simp only [hs] at h
    obtain ⟨u, hu, hfinish⟩ := andThen_eq_next_iff.1 h
    obtain ⟨-, rfl⟩ := emit_eq_next_iff.1 hu
    exact finishRun_acc (hb.emitted _) hfinish
  | flushing => simp [protocolIn, hs] at hlegal
  | done => simp [protocolIn, hs] at hlegal

end Sys2Proof.Machine
end

section
/-! What one insertion keeps of the dictionary table (10_state.md R30, R37; 40_dictionary.md R105, R107). -/

namespace Sys2Proof.Machine

/-- Writing an empty slot leaves the occupied ones as they are. -/
theorem tableRead_tableWrite_of_some {t : Memory} {i j : Nat} {e : Entry} (v : Option Entry) (hwf : t.wf)
    (hempty : tableRead t i = none) (hj : tableRead t j = some e) : tableRead (tableWrite t i v) j = some e := by
  have hne : j ≠ i := fun hji => by simp [hji, hempty] at hj
  rw [tableRead_tableWrite_other v hwf hne, hj]

/-- A lookup that hits goes on hitting after an empty slot is written (40_dictionary.md R107). -/
theorem probeLoop_tableWrite_of_hit {t : Memory} {i : Nat} (v : Option Entry) (hwf : t.wf) (hempty : tableRead t i = none)
    {p : Code} {b : Byte} {off left idx n slot k : Nat} {e : Entry} (h : probeLoop t p b off left idx n = .hit slot k e) :
    probeLoop (tableWrite t i v) p b off left idx n = .hit slot k e := by
  induction left generalizing idx n with
  | zero => simp [probeLoop] at h
  | succ left ih =>
    rcases hr : tableRead t idx with _ | f
    · simp [probeLoop, hr] at h
    · simp only [probeLoop, hr, tableRead_tableWrite_of_some v hwf hempty hr] at h ⊢
      split
      · case isTrue hpair => simpa [hpair] using h
      · case isFalse hpair => exact ih (by simpa [hpair] using h)

/-- A lookup that missed finds the pair once it is written to the slot of the miss (40_dictionary.md R105, R107). -/
theorem probeLoop_tableWrite_of_miss {t : Memory} {slot : Nat} (hwf : t.wf) (hempty : tableRead t slot = none)
    {p : Code} {b : Byte} (c : Code) {off left idx n k : Nat} (h : probeLoop t p b off left idx n = .miss slot k) :
    probeLoop (tableWrite t slot (some ⟨p, b, c⟩)) p b off left idx n = .hit slot k ⟨p, b, c⟩ := by
  induction left generalizing idx n with
  | zero => simp [probeLoop] at h
  | succ left ih =>
    rcases hr : tableRead t idx with _ | f
    · simp only [probeLoop, hr, ProbeResult.miss.injEq] at h
      obtain ⟨rfl, rfl⟩ := h
      simp [probeLoop, tableRead_tableWrite_same]
    · have hnext : ¬ (f.pre = p ∧ f.byte = b) ∧ probeLoop t p b off left (nextIndex off idx) (n + 1) = .miss slot k := by
        simp only [probeLoop, hr] at h
        split at h
        · cases h
        · case isFalse hpair => exact ⟨hpair, h⟩
      obtain ⟨hpair, hmiss⟩ := hnext
      simp only [probeLoop, tableRead_tableWrite_of_some _ hwf hempty hr, if_neg hpair]
      exact ih hmiss

theorem hitSlot_eq_some {t : Memory} {p : Code} {b : Byte} {i : Nat} (h : hitSlot t p b = some i) :
    ∃ n e, probe t p b = .hit i n e := by
  rcases hp : probe t p b with ⟨idx, n, e⟩ | ⟨idx, n⟩ | _ <;> simp [hitSlot, hp] at h
  exact ⟨n, e, by rw [h]⟩

/-- The part of the invariant that is about the table and `next` (I-a, I-b, I-c of 10_state.md R37; 20_memory.md R57;
40_dictionary.md R107). -/
structure TableInv (t : Memory) (next : Code) : Prop where
  tableWf : t.wf
  nextRange : Config.firstCode ≤ next.toNat
  codes : (codesHeld t).Perm (List.range' Config.firstCode (next.toNat - Config.firstCode))
  olderPrefix : ∀ x ∈ t, x.2.pre.toNat < x.2.code.toNat
  found : ∀ x ∈ t, hitSlot t x.2.pre x.2.byte = some x.1

theorem Inv.tableInv {s : State} (h : Inv s) : TableInv s.table s.next :=
  ⟨h.tableWf, h.nextRange, h.codes, h.olderPrefix, h.found⟩

theorem TableInv.empty : TableInv [] 256#12 :=
  ⟨by decide, by decide, by decide, by simp, by simp⟩

/-- The codes held are those from 256 on that are below `next` (10_state.md R37 I-b). -/
theorem TableInv.mem_codesHeld_iff {t : Memory} {next : Code} (h : TableInv t next) (c : Nat) :
    c ∈ codesHeld t ↔ 256 ≤ c ∧ c < next.toNat := by
  have hnext : 256 ≤ next.toNat := h.nextRange
  rw [h.codes.mem_iff, List.mem_range'_1, Config.firstCode]
  omega

theorem TableInv.code_range {t : Memory} {next : Code} (h : TableInv t next) {x : Nat × Entry} (hx : x ∈ t) :
    256 ≤ x.2.code.toNat ∧ x.2.code.toNat < next.toNat :=
  (h.mem_codesHeld_iff _).1 (List.mem_map_of_mem hx)

theorem TableInv.length_eq {t : Memory} {next : Code} (h : TableInv t next) : t.length = next.toNat - 256 := by
  have hlen := h.codes.length_eq
  rwa [codesHeld, List.length_map, List.length_range', Config.firstCode] at hlen

theorem TableInv.codesHeld_nodup {t : Memory} {next : Code} (h : TableInv t next) : (codesHeld t).Nodup :=
  h.codes.nodup_iff.2 List.nodup_range'

/-- The code space has room exactly while `next` is at most 4094 (10_state.md R32). -/
theorem dictFull_eq_false_iff (s : State) : dictFull s = false ↔ s.next.toNat ≤ 4094 :=
  decide_eq_false_iff_not.trans Nat.not_lt

/-- Assigning `next` to the pair of a miss keeps the table's part of the invariant (41_encoder_loop.md R134). -/
theorem TableInv.insert {t : Memory} {next p : Code} {b : Byte} {idx n : Nat} (h : TableInv t next)
    (hmiss : probe t p b = .miss idx n) (hp : p.toNat < next.toNat) (hroom : next.toNat ≤ 4094) :
    TableInv (tableWrite t idx (some ⟨p, b, next⟩)) (next + 1#12) := by
  obtain ⟨-, -, hidx, hempty⟩ := probe_miss hmiss
  have hnext : 256 ≤ next.toNat := h.nextRange
  have hsucc : (next + 1#12).toNat = next.toNat + 1 := by bv_omega
  have hmem : ∀ x ∈ tableWrite t idx (some ⟨p, b, next⟩), x = (idx, ⟨p, b, next⟩) ∨ x ∈ t := fun x hx =>
    List.mem_cons.1 ((tableWrite_perm _ h.tableWf hempty).mem_iff.1 hx)
  refine ⟨tableWrite_wf _ h.tableWf hidx, ?range, ?codes, ?older, ?found⟩
  case range =>
    rw [hsucc]
    exact Nat.le_succ_of_le h.nextRange
  case codes =>
    have hsize : next.toNat + 1 - 256 = (next.toNat - 256) + 1 := by omega
    have hlast : 256 + 1 * (next.toNat - 256) = next.toNat := by omega
    calc codesHeld (tableWrite t idx (some ⟨p, b, next⟩))
        |>.Perm (next.toNat :: codesHeld t) := (tableWrite_perm _ h.tableWf hempty).map _
      _ |>.Perm (next.toNat :: List.range' 256 (next.toNat - 256)) := h.codes.cons _
      _ |>.Perm (List.range' 256 (next.toNat - 256) ++ [next.toNat]) := (List.perm_append_singleton _ _).symm
      _ |>.Perm (List.range' 256 ((next + 1#12).toNat - 256)) := by
        rw [hsucc, hsize, List.range'_concat, hlast]
  case older =>
    intro x hx
    rcases hmem x hx with rfl | hold
    · exact hp
    · exact h.olderPrefix x hold
  case found =>
    intro x hx
    rcases hmem x hx with rfl | hold
    · have hhit : probe (tableWrite t idx (some ⟨p, b, next⟩)) p b = .hit idx n ⟨p, b, next⟩ :=
        probeLoop_tableWrite_of_miss h.tableWf hempty next hmiss
      simp [hitSlot, hhit]
    · obtain ⟨k, e, hhit⟩ := hitSlot_eq_some (h.found x hold)
      have hkept : probe (tableWrite t idx (some ⟨p, b, next⟩)) x.2.pre x.2.byte = .hit x.1 k e :=
        probeLoop_tableWrite_of_hit _ h.tableWf hempty hhit
      simp [hitSlot, hkept]

/-- What a miss does to the table and `next`, with or without room, keeps their part of the invariant (41_encoder_loop.md
R134, R137). -/
theorem TableInv.learn {s : State} {p : Code} {b : Byte} {idx n : Nat} (h : TableInv s.table s.next)
    (hmiss : probe s.table p b = .miss idx n) (hp : p.toNat < s.next.toNat) :
    TableInv (if dictFull s then s.table else tableWrite s.table idx (some ⟨p, b, s.next⟩))
      (if dictFull s then s.next else s.next + 1#12) := by
  cases hfull : dictFull s with
  | true => exact h
  | false => exact h.insert hmiss hp ((dictFull_eq_false_iff s).1 hfull)

end Sys2Proof.Machine
end

section
/-! Every step keeps the invariant (10_state.md R36, R37). -/

namespace Sys2Proof.Machine

theorem readCur_of_cur {s : State} {c : Code} (h : s.cur = some c) : readCur s = c := by
  rw [readCur, h]
  rfl

/-- In RUNNING the value read from `cur` is a literal or the code of an entry (10_state.md R37 I-e). -/
theorem Inv.readCur_lt {s : State} (h : Inv s) (hrun : s.state = .running) : (readCur s).toNat < s.next.toNat := by
  obtain ⟨c, hcur, hlt⟩ := h.runningCur hrun
  rwa [readCur_of_cur hcur]

theorem zext12_lt (b : Byte) : (zext12 b).toNat < 256 := by
  rw [zext12, BitVec.toNat_setWidth_of_le (by decide)]
  exact b.isLt

/-- A state with the values of 10_state.md R36 meets the invariant. -/
theorem inv_of_fresh {s : State} (hstate : s.state = .start) (hcur : s.cur = none) (hnext : s.next = 256#12)
    (hacc : s.acc = 0#32) (hcnt : s.cnt = 0#5) (htable : s.table = [])
    (hscratch : s.idx = none ∧ s.off = none ∧ s.n = none) (hinfo : s.fault = 0#2 → s.faultInfo = 0#16) : Inv s := by
  have ht : TableInv s.table s.next := by
    rw [htable, hnext]
    exact TableInv.empty
  exact {
    tableWf := ht.tableWf
    nextRange := ht.nextRange
    codes := ht.codes
    olderPrefix := ht.olderPrefix
    found := ht.found
    cntCases := Or.inl hcnt
    accClear := by rw [hacc, hcnt]; rfl
    startFresh := fun _ => ⟨hcur, hnext, hcnt, hacc, htable⟩
    runningCur := fun h => by simp [hstate] at h
    doneDrained := fun h => by simp [hstate] at h
    notFlushing := by simp [hstate]
    scratchEmpty := hscratch
    infoClear := hinfo }

theorem inv_freshRun {s : State} (h : Inv s) : Inv (freshRun s) :=
  inv_of_fresh rfl rfl rfl rfl rfl rfl ⟨rfl, rfl, rfl⟩ h.infoClear

theorem inv_applyReset (s : State) : Inv (applyReset s) :=
  inv_of_fresh rfl rfl rfl rfl rfl rfl ⟨rfl, rfl, rfl⟩ (fun _ => rfl)

/-- Taking a fault touches nothing the invariant speaks of (60_exceptions.md R198). -/
theorem inv_set_fault {s : State} (h : Inv s) {f : BitVec 2} (hf : f ≠ 0#2) (info : BitVec 16) :
    Inv { s with fault := f, faultInfo := info } :=
  { h with infoClear := fun h0 => absurd h0 hf }

/-- RUNNING is entered, or gone on in, with any consistent `cur`, table and bit buffer. -/
theorem inv_running {s : State} (h : Inv s) {c next : Code} {table : Memory} {acc : BitVec 32} {cnt : BitVec 5}
    {out : List OutEvent} (ht : TableInv table next) (hcnt : cnt = 0#5 ∨ cnt = 4#5) (hacc : acc <<< cnt.toNat = 0#32)
    (hc : c.toNat < next.toNat) :
    Inv { s with state := .running, cur := some c, next := next, table := table, acc := acc, cnt := cnt, out := out,
                 idx := none, off := none, n := none } where
  tableWf := ht.tableWf
  nextRange := ht.nextRange
  codes := ht.codes
  olderPrefix := ht.olderPrefix
  found := ht.found
  cntCases := hcnt
  accClear := hacc
  startFresh := fun hs => by cases hs
  runningCur := fun _ => ⟨c, rfl, hc⟩
  doneDrained := fun hs => by cases hs
  notFlushing := fun hs => by cases hs
  scratchEmpty := ⟨rfl, rfl, rfl⟩
  infoClear := h.infoClear

/-- DONE is entered with an empty bit buffer (10_state.md R37 I-f). -/
theorem inv_done {s : State} (h : Inv s) (out : List OutEvent) :
    Inv { s with state := .done, acc := 0#32, cnt := 0#5, out := out } :=
  { h with
    cntCases := Or.inl rfl
    accClear := rfl
    startFresh := fun hs => by cases hs
    runningCur := fun hs => by cases hs
    doneDrained := fun _ => ⟨rfl, rfl⟩
    notFlushing := fun hs => by cases hs }

/-- BYTE keeps the invariant (41_encoder_loop.md R131, R133, R134, R137). -/
theorem execByte_keeps_inv {b : Byte} {s t : State} (h : Inv s) (h0 : s.fault = 0#2) (hx : exec (.byte b) s = .next t) :
    Inv t := by
  rcases execByte_cases h0 hx with ⟨-, rfl⟩ | ⟨hstart, rfl⟩ | ⟨hrun, idx, n, e, hp, rfl⟩ | ⟨hrun, -, idx, n, hp, rfl⟩ |
    ⟨-, -, rfl⟩
  · exact inv_set_fault h (by decide) _
  · have hi := inv_running (c := zext12 b) (out := s.out) h h.tableInv h.cntCases h.accClear
      ((zext12_lt b).trans_le h.nextRange)
    obtain ⟨hidx, hoff, hn⟩ := h.scratchEmpty
    rwa [hidx, hoff, hn]
  · obtain ⟨-, -, hread, -⟩ := probe_hit hp
    have hmem : (idx, e) ∈ s.table := (tableRead_eq_some_iff h.tableWf idx e).1 hread
    have hi := inv_running (c := e.code) (out := s.out) h h.tableInv h.cntCases h.accClear (h.tableInv.code_range hmem).2
    rwa [← hrun] at hi
  · have hbuf := h.bufferOk.emitted (readCur s)
    have ht := h.tableInv.learn hp (h.readCur_lt hrun)
    have hi := inv_running (c := zext12 b) (out := (emitted (readCur s) s).out) h ht hbuf.1 hbuf.2
      ((zext12_lt b).trans_le ht.nextRange)
    rwa [← hrun] at hi
  · exact inv_set_fault h (by decide) _

/-- END keeps the invariant (41_encoder_loop.md R135). -/
theorem execEndOfInput_keeps_inv {s t : State} (h : Inv s) (h0 : s.fault = 0#2) (hx : exec .endOfInput s = .next t) :
    Inv t := by
  rcases execEndOfInput_cases h0 hx with ⟨-, rfl⟩ | ⟨hlegal, ht, -⟩
  · exact inv_set_fault h (by decide) _
  · rw [execEndOfInput_acc h0 h.bufferOk hlegal hx] at ht
    rw [ht]
    exact inv_done h t.out

/-- A host command keeps the invariant; the internal operations, which no command word encodes, need not. -/
theorem exec_keeps_inv {i : Instr} {w : CmdWord} {s t : State} (h : Inv s) (hi : encode i = .command w)
    (hx : exec i s = .next t) : Inv t := by
  by_cases h0 : s.fault = 0#2
  · cases i with
    | init =>
      rcases execInit_cases h0 hx with ⟨-, rfl⟩ | ⟨-, rfl⟩
      · exact inv_set_fault h (by decide) _
      · exact inv_freshRun h
    | byte b => exact execByte_keeps_inv h h0 hx
    | endOfInput => exact execEndOfInput_keeps_inv h h0 hx
    | abort r =>
      rw [execAbort_cases h0 hx]
      exact inv_set_fault h (by decide) _
    | _ => cases hi
  · rw [exec_of_faulted i h0] at hx
    cases hx
    exact h

/-- A reserved word keeps the invariant (30_encoding.md R72). -/
theorem raiseProtocol_keeps_inv {w : CmdWord} {s t : State} (h : Inv s)
    (hx : whenHealthy s (.next (raiseProtocol w s)) = .next t) : Inv t := by
  rcases whenHealthy_eq_next_iff.1 hx with ⟨h0, ht⟩ | ⟨-, rfl⟩
  · cases ht
    rw [raiseProtocol, raise_of_healthy h0]
    exact inv_set_fault h (causeCode_ne_zero _) _
  · exact h

theorem step_keeps_inv {s t : State} (h : Inv s) (hx : step s = .next t) : Inv t := by
  rcases step_cases hx with ⟨-, rfl⟩ | ⟨rest, -, rfl⟩ | ⟨w, rest, i, -, hdec, hexec⟩ | ⟨w, rest, -, -, hraise⟩
  · exact h
  · exact inv_applyReset _
  · exact exec_keeps_inv (inv_set_input h rest) (encode_of_decode hdec) hexec
  · exact raiseProtocol_keeps_inv (inv_set_input h rest) hraise

theorem inv_reset (acts : List HostAction) : Inv { State.reset with input := acts } :=
  inv_of_fresh rfl rfl rfl rfl rfl rfl ⟨rfl, rfl, rfl⟩ (fun _ => rfl)

/-- A run of `k + 1` steps is a step and a run of `k`. -/
theorem run_succ_eq_next_iff {M : Host.Core} {k : Nat} {s t : M.State} :
    M.run (k + 1) s = .next t ↔ ∃ s', M.step s = .next s' ∧ M.run k s' = .next t := by
  have hrun : M.run (k + 1) s = (match M.step s with
    | .next s' => M.run k s'
    | .fault r => .fault r
    | .refused r => .refused r) := rfl
  rw [hrun]
  cases M.step s <;> simp

/-- What every step keeps, every run keeps. -/
theorem run_keeps {P : State → Prop} (hstep : ∀ s t, P s → step s = .next t → P t) {k : Nat} {s t : State} (h : P s)
    (hrun : Sys2Proof.core.run k s = .next t) : P t := by
  induction k generalizing s with
  | zero => cases hrun; exact h
  | succ k ih =>
    obtain ⟨s', hfirst, hrest⟩ := run_succ_eq_next_iff.1 hrun
    exact ih (hstep s s' h hfirst) hrest

theorem Reachable.inv {s : State} (h : Reachable s) : Inv s := by
  obtain ⟨acts, k, hrun⟩ := h
  exact run_keeps (fun _ _ => step_keeps_inv) (inv_reset acts) hrun

end Sys2Proof.Machine
end

section
/-! No rule reads `no value` (10_state.md R38): a step commutes with moving the counter that selects the free value. -/

namespace Sys2Proof.Machine

/-- The state with the counter of the free value (log entry 2) moved by `e`. -/
def shiftEpoch (e : Nat) (s : State) : State := { s with epoch := s.epoch + e }

@[simp] theorem shiftEpoch_state (e : Nat) (s : State) : (shiftEpoch e s).state = s.state := rfl
@[simp] theorem shiftEpoch_table (e : Nat) (s : State) : (shiftEpoch e s).table = s.table := rfl
@[simp] theorem shiftEpoch_input (e : Nat) (s : State) : (shiftEpoch e s).input = s.input := rfl

/-- The next state of an outcome, changed; a fault or a refusal stays. -/
def mapNext (f : State → State) (o : Host.Outcome State Fault Refusal) : Host.Outcome State Fault Refusal :=
  andThen o fun s => .next (f s)

/-- A sequence commutes with a change of state if its second part does. -/
theorem andThen_mapNext {f : State → State} {k k' : State → Host.Outcome State Fault Refusal}
    (hk : ∀ s, k' (f s) = mapNext f (k s)) (o : Host.Outcome State Fault Refusal) :
    andThen (mapNext f o) k' = mapNext f (andThen o k) := by
  cases o with
  | next s => exact hk s
  | fault r => rfl
  | refused r => rfl

theorem whenHealthy_shiftEpoch (e : Nat) (s : State) (o : Host.Outcome State Fault Refusal) :
    whenHealthy (shiftEpoch e s) (mapNext (shiftEpoch e) o) = mapNext (shiftEpoch e) (whenHealthy s o) := by
  by_cases h : s.fault = 0#2
  · rw [whenHealthy_of_healthy h, whenHealthy_of_healthy (s := shiftEpoch e s) h]
  · rw [whenHealthy_of_faulted h, whenHealthy_of_faulted (s := shiftEpoch e s) h]
    rfl

theorem raise_shiftEpoch (c : Cause) (info : BitVec 16) (e : Nat) (s : State) :
    raise c info (shiftEpoch e s) = shiftEpoch e (raise c info s) := by
  unfold raise shiftEpoch
  split <;> rfl

theorem freshRun_shiftEpoch (e : Nat) (s : State) : freshRun (shiftEpoch e s) = shiftEpoch e (freshRun s) := by
  simp [freshRun, shiftEpoch, Nat.add_right_comm]

theorem applyReset_shiftEpoch (e : Nat) (s : State) : applyReset (shiftEpoch e s) = shiftEpoch e (applyReset s) := by
  simp [applyReset, shiftEpoch, Nat.add_right_comm]

theorem drainLoop_shiftEpoch (fuel e : Nat) (s : State) :
    drainLoop fuel (shiftEpoch e s) = shiftEpoch e (drainLoop fuel s) := by
  induction fuel generalizing s with
  | zero => rfl
  | succ fuel ih =>
    simp only [drainLoop]
    split
    · case isTrue hc => rw [if_pos (show 8 ≤ s.cnt.toNat from hc), ← ih]; rfl
    · case isFalse hc => rw [if_neg (show ¬ 8 ≤ s.cnt.toNat from hc)]

theorem emit_shiftEpoch (c : Code) (e : Nat) (s : State) :
    emit c (shiftEpoch e s) = mapNext (shiftEpoch e) (emit c s) := by
  have hemitted : emitted c (shiftEpoch e s) = shiftEpoch e (emitted c s) := drainLoop_shiftEpoch 3 e (pushBits c s)
  by_cases hc : s.cnt.toNat ≤ 20
  · rw [emit, emit, if_pos hc, if_pos (show (shiftEpoch e s).cnt.toNat ≤ 20 from hc), hemitted]
    rfl
  · rw [emit_of_gt (s := s) (Nat.lt_of_not_le hc), emit_of_gt (s := shiftEpoch e s) (Nat.lt_of_not_le hc)]
    rfl

theorem flush_shiftEpoch (e : Nat) (s : State) : flush (shiftEpoch e s) = shiftEpoch e (flush s) := by
  unfold flush shiftEpoch
  split <;> rfl

theorem finishRun_shiftEpoch (e : Nat) (s : State) : finishRun (shiftEpoch e s) = mapNext (shiftEpoch e) (finishRun s) := by
  rw [finishRun, emit_shiftEpoch]
  refine andThen_mapNext (fun u => ?_) _
  exact congrArg (fun v : State => Host.Outcome.next { v with state := .done })
    (flush_shiftEpoch e { u with state := .flushing })

theorem learn_shiftEpoch (idx : Nat) (p : Code) (b : Byte) (e : Nat) (s : State) :
    learn idx p b (shiftEpoch e s) = mapNext (shiftEpoch e) (learn idx p b s) := by
  by_cases hfull : dictFull s = true
  · rw [learn, learn, if_pos hfull, if_pos (show dictFull (shiftEpoch e s) = true from hfull)]
    rfl
  · have hwrite : insertEntry idx p b (shiftEpoch e s).next (shiftEpoch e s) =
        mapNext (shiftEpoch e) (insertEntry idx p b s.next s) := by
      unfold insertEntry memWrite shiftEpoch
      split <;> rfl
    rw [learn, learn, if_neg hfull, if_neg (show ¬ dictFull (shiftEpoch e s) = true from hfull), hwrite]
    exact andThen_mapNext (fun _ => rfl) _

/-- While `cur` holds a value, reading it does not depend on the free value. -/
theorem readCur_shiftEpoch {s : State} {c : Code} (h : s.cur = some c) (e : Nat) : readCur (shiftEpoch e s) = readCur s := by
  rw [readCur_of_cur h, readCur_of_cur (s := shiftEpoch e s) h]

theorem mainLoop_shiftEpoch {s : State} {c : Code} (h : s.cur = some c) (b : Byte) (e : Nat) :
    mainLoop b (shiftEpoch e s) = mapNext (shiftEpoch e) (mainLoop b s) := by
  unfold mainLoop
  rw [readCur_shiftEpoch h, shiftEpoch_table]
  cases probe s.table (readCur s) b with
  | overflow => exact congrArg Host.Outcome.next (raise_shiftEpoch _ _ e s)
  | hit idx n f => rfl
  | miss idx n =>
    simp only [emit_shiftEpoch]
    refine andThen_mapNext (fun u => ?_) _
    rw [learn_shiftEpoch]
    exact andThen_mapNext (fun _ => rfl) _

/-- A command reads `cur` only in RUNNING; where it holds a value there, the free value is not read. -/
theorem exec_shiftEpoch {i : Instr} {w : CmdWord} {s : State} (hi : encode i = .command w)
    (hcur : s.state = .running → ∃ c, s.cur = some c) (e : Nat) :
    exec i (shiftEpoch e s) = mapNext (shiftEpoch e) (exec i s) := by
  cases i with
  | init =>
    rw [exec, execInit, exec, execInit, ← whenHealthy_shiftEpoch]
    congr 1
    rw [shiftEpoch_state]
    cases s.state with
    | start => exact congrArg _ (freshRun_shiftEpoch e s)
    | done => exact congrArg _ (freshRun_shiftEpoch e s)
    | running => exact congrArg _ (raise_shiftEpoch _ _ e s)
    | flushing => exact congrArg _ (raise_shiftEpoch _ _ e s)
  | byte b =>
    rw [exec, execByte, exec, execByte, ← whenHealthy_shiftEpoch]
    congr 1
    rw [shiftEpoch_state]
    cases hs : s.state with
    | start => rfl
    | running =>
      obtain ⟨c, hc⟩ := hcur hs
      exact mainLoop_shiftEpoch hc b e
    | flushing => exact congrArg _ (raise_shiftEpoch _ _ e s)
    | done => exact congrArg _ (raise_shiftEpoch _ _ e s)
  | endOfInput =>
    rw [exec, execEndOfInput, exec, execEndOfInput, ← whenHealthy_shiftEpoch]
    congr 1
    rw [shiftEpoch_state]
    cases hs : s.state with
    | start => exact finishRun_shiftEpoch e s
    | running =>
      obtain ⟨c, hc⟩ := hcur hs
      simp only [readCur_shiftEpoch hc, emit_shiftEpoch]
      exact andThen_mapNext (fun u => finishRun_shiftEpoch e u) _
    | flushing => exact congrArg _ (raise_shiftEpoch _ _ e s)
    | done => exact congrArg _ (raise_shiftEpoch _ _ e s)
  | abort r =>
    rw [exec, execAbort, exec, execAbort, ← whenHealthy_shiftEpoch]
    exact congrArg _ (congrArg _ (raise_shiftEpoch _ _ e s))
  | _ => cases hi

theorem acceptCommand_shiftEpoch {s : State} (hcur : s.state = .running → ∃ c, s.cur = some c) (w : CmdWord) (e : Nat) :
    acceptCommand w (shiftEpoch e s) = mapNext (shiftEpoch e) (acceptCommand w s) := by
  have hreject : rejectReserved w (shiftEpoch e s) = mapNext (shiftEpoch e) (rejectReserved w s) := by
    rw [rejectReserved, rejectReserved, ← whenHealthy_shiftEpoch]
    exact congrArg _ (congrArg _ (raise_shiftEpoch _ _ e s))
  unfold acceptCommand
  cases hdec : decode w with
  | command i => exact exec_shiftEpoch (encode_of_decode hdec) hcur e
  | reservedInit d => exact hreject
  | reservedEnd d => exact hreject

theorem step_shiftEpoch {s : State} (h : Inv s) (e : Nat) : step (shiftEpoch e s) = mapNext (shiftEpoch e) (step s) := by
  have hcur : s.state = .running → ∃ c, s.cur = some c := fun hrun => (h.runningCur hrun).imp fun _ hc => hc.1
  unfold step takeAction nextAction
  rw [shiftEpoch_input]
  rcases s.input with _ | ⟨w | _, rest⟩
  · rfl
  · exact acceptCommand_shiftEpoch (s := { s with input := rest }) hcur w e
  · exact congrArg Host.Outcome.next (applyReset_shiftEpoch e { s with input := rest })

end Sys2Proof.Machine
end

section
/-! What a command does to the table (10_state.md R30), the flag `hit` (R32), and the statements of 10_state.md. -/

namespace Sys2Proof.Machine

/-- What a command can do to the table: nothing, fill an empty slot, or, as INIT, empty it. -/
theorem exec_command_table {i : Instr} {w : CmdWord} {s t : State} (hi : encode i = .command w) (hx : exec i s = .next t) :
    t.table = s.table ∨ (∃ idx e, tableRead s.table idx = none ∧ t.table = tableWrite s.table idx (some e)) ∨
      (w = initWord ∧ t.state = .start ∧ t.table = []) := by
  by_cases h0 : s.fault = 0#2
  · cases i with
    | init =>
      cases hi
      rcases execInit_cases h0 hx with ⟨-, rfl⟩ | ⟨-, rfl⟩
      · exact Or.inl rfl
      · exact Or.inr (Or.inr ⟨rfl, rfl, rfl⟩)
    | byte b =>
      rcases execByte_cases h0 hx with ⟨-, rfl⟩ | ⟨-, rfl⟩ | ⟨-, idx, n, e, -, rfl⟩ | ⟨-, -, idx, n, hp, rfl⟩ | ⟨-, -, rfl⟩
      · exact Or.inl rfl
      · exact Or.inl rfl
      · exact Or.inl rfl
      · obtain ⟨-, -, -, hempty⟩ := probe_miss hp
        cases hfull : dictFull s with
        | true => exact Or.inl rfl
        | false => exact Or.inr (Or.inl ⟨idx, _, hempty, rfl⟩)
      · exact Or.inl rfl
    | endOfInput =>
      rcases execEndOfInput_cases h0 hx with ⟨-, rfl⟩ | ⟨-, ht, -⟩
      · exact Or.inl rfl
      · rw [ht]
        exact Or.inl rfl
    | abort r =>
      rw [execAbort_cases h0 hx]
      exact Or.inl rfl
    | _ => cases hi
  · rw [exec_of_faulted i h0] at hx
    cases hx
    exact Or.inl rfl

/-- What a step can do to the table: nothing, fill an empty slot, or, as INIT or reset, empty it (10_state.md R30). -/
theorem step_table {s t : State} (hx : step s = .next t) :
    t.table = s.table ∨ (∃ idx e, tableRead s.table idx = none ∧ t.table = tableWrite s.table idx (some e)) ∨
      (t.table = [] ∧ t.state = .start ∧ ∃ rest, s.input = .reset :: rest ∨ s.input = .command initWord :: rest) := by
  rcases step_cases hx with ⟨-, rfl⟩ | ⟨rest, hin, rfl⟩ | ⟨w, rest, i, hin, hdec, hexec⟩ | ⟨w, rest, -, -, hraise⟩
  · exact Or.inl rfl
  · exact Or.inr (Or.inr ⟨rfl, rfl, rest, Or.inl hin⟩)
  · rcases exec_command_table (encode_of_decode hdec) hexec with hsame | hfill | ⟨rfl, hstart, hclear⟩
    · exact Or.inl hsame
    · exact Or.inr (Or.inl hfill)
    · exact Or.inr (Or.inr ⟨hclear, hstart, rest, Or.inr hin⟩)
  · rcases whenHealthy_eq_next_iff.1 hraise with ⟨-, ht⟩ | ⟨-, rfl⟩
    · cases ht
      rw [raiseProtocol, raise_frame]
      exact Or.inl rfl
    · exact Or.inl rfl

/-- The pair of an entry determines its slot (10_state.md R30). -/
theorem TableInv.slot_of_pair {t : Memory} {next : Code} (h : TableInv t next) {x y : Nat × Entry} (hx : x ∈ t) (hy : y ∈ t)
    (hpre : x.2.pre = y.2.pre) (hbyte : x.2.byte = y.2.byte) : x.1 = y.1 := by
  have hfound := h.found x hx
  rw [hpre, hbyte, h.found y hy] at hfound
  exact (Option.some.inj hfound).symm

/-- The code of an entry determines its slot (10_state.md R30). -/
theorem TableInv.slot_of_code {t : Memory} {next : Code} (h : TableInv t next) {x y : Nat × Entry} (hx : x ∈ t) (hy : y ∈ t)
    (hcode : x.2.code = y.2.code) : x.1 = y.1 :=
  congrArg Prod.fst (List.inj_on_of_nodup_map h.codesHeld_nodup hx hy (congrArg BitVec.toNat hcode))

/-- After a PROBE that ended at `idx`, `hit` says whether that slot is occupied (10_state.md R32). -/
theorem hit_setScratch {p : Code} {b : Byte} {idx n : Nat} (s : State) (hidx : idx < Config.tableSize) :
    hit (setScratch p b idx n s) = (tableRead s.table idx).isSome := by
  have hfits : (BitVec.ofNat 13 idx).toNat = idx := by
    rw [BitVec.toNat_ofNat]
    exact Nat.mod_eq_of_lt (hidx.trans (by decide))
  change (tableRead s.table (BitVec.ofNat 13 idx).toNat).isSome = _
  rw [hfits]

theorem dictFull_iff (s : State) : dictFull s = true ↔ s.next = 4095#12 := by
  rw [← Bool.not_eq_false, dictFull_eq_false_iff]
  bv_omega

end Sys2Proof.Machine

namespace Sys2Proof.Proofs

open Sys2Proof.Machine

/-- Settles O37: every case of the step keeps `Inv` (`step_keeps_inv`). -/
theorem stepKeepsInvariant : Obligations.StepKeepsInvariant :=
  fun _ _ => step_keeps_inv

/-- Settles O38: a reachable state meets `Inv`, and R37 is read off it. -/
theorem reachableStatesMeetR37 : Obligations.ReachableStatesMeetR37 := by
  intro s hreach
  have h := hreach.inv
  have ht := h.tableInv
  have hlow : 256 ≤ s.next.toNat := h.nextRange
  have hhigh : s.next.toNat < 4096 := s.next.isLt
  have hlen := ht.length_eq
  refine ⟨by omega, ⟨hlen, ?codeHeld, ht.codesHeld_nodup, fun x hx => ht.code_range hx, by omega, by omega⟩, ?older,
    ⟨?cnt, h.accClear⟩, h.startFresh, ?running, h.doneDrained, h.notFlushing⟩
  case codeHeld =>
    intro c hc hlt
    exact List.mem_map.1 ((ht.mem_codesHeld_iff c).2 ⟨hc, hlt⟩)
  case older =>
    intro x hx
    have := h.olderPrefix x hx
    omega
  case cnt => exact h.cntCases.imp (congrArg BitVec.toNat) (congrArg BitVec.toNat)
  case running =>
    intro hrun
    obtain ⟨c, hcur, hlt⟩ := h.runningCur hrun
    exact ⟨c, hcur, by omega⟩

/-- Settles O42: the step commutes with moving the counter (`step_shiftEpoch`). -/
theorem noValueIsNeverRead : Obligations.NoValueIsNeverRead := by
  intro s t e h hx
  calc step (shiftEpoch e s) = mapNext (shiftEpoch e) (step s) := step_shiftEpoch h e
    _ = .next (shiftEpoch e t) := by rw [hx]; rfl

/-- Settles O41: growth is `step_table`, uniqueness and count are the table's part of the invariant. -/
theorem entriesAreImmutable : Obligations.EntriesAreImmutable := by
  intro s t h hx
  have mem : ∀ {a e}, tableRead s.table a = some e → (a, e) ∈ s.table := (tableRead_eq_some_iff h.tableWf _ _).1
  refine ⟨?growth, ?unique, h.tableInv.length_eq⟩
  case growth =>
    rcases step_table hx with hsame | ⟨idx, e, hempty, hfill⟩ | ⟨hclear, hstart, hin⟩
    · rw [hsame]
      exact Or.inl ⟨fun _ _ ha => ha, Nat.le_succ _⟩
    · rw [hfill]
      exact Or.inl ⟨fun _ _ ha => tableRead_tableWrite_of_some _ h.tableWf hempty ha,
        (tableWrite_perm e h.tableWf hempty).length_eq.le⟩
    · rw [hclear]
      exact Or.inr ⟨fun _ => rfl, hstart, hin⟩
  case unique =>
    rintro a b e f ha hb (⟨hpre, hbyte⟩ | hcode)
    · exact h.tableInv.slot_of_pair (mem ha) (mem hb) hpre hbyte
    · exact h.tableInv.slot_of_code (mem ha) (mem hb) hcode

/-- Settles O5: field by field, and back. -/
theorem slotLayoutRoundTrips : Obligations.SlotLayoutRoundTrips :=
  ⟨fun e => ⟨encodeSlot_valid e, encodeSlot_pre e, encodeSlot_byte e, encodeSlot_code e, decodeSlot_encodeSlot e⟩,
    fun _ => decodeSlot_of_not_valid⟩

/-- Settles O8: the reset event answers `applyReset`, a legal INIT answers `freshRun`, and both have R36's values. -/
theorem resetAndInitLeaveFreshState : Obligations.ResetAndInitLeaveFreshState := by
  constructor
  case left =>
    intro s rest hin
    have hstep : step s = .next (applyReset { s with input := rest }) := by
      rw [step, takeAction, nextAction_of_input hin]
    exact ⟨_, hstep, rfl, rfl, rfl, rfl, rfl, fun _ => rfl, rfl, rfl, rfl, rfl, rfl, rfl, rfl⟩
  case right =>
    intro s h0 hlegal
    have hexec : exec .init s = .next (freshRun s) := by
      rw [exec, execInit, whenHealthy_of_healthy h0]
      rcases hlegal with hs | hs <;> rw [hs]
    exact ⟨_, hexec, rfl, rfl, rfl, rfl, rfl, fun _ => rfl, rfl, rfl, rfl, rfl, rfl, rfl, rfl⟩

/-- Settles O27: the slot of a hit is occupied, the slot of a miss is empty, and an exhausted walk leaves a fault. -/
theorem flagsAreFunctionsOfState : Obligations.FlagsAreFunctionsOfState := by
  refine ⟨?hit, fun s => ⟨dictFull_iff s, decide_eq_true_iff, decide_eq_true_iff⟩⟩
  case hit =>
    intro s t p b h0 hx ht
    rcases execProbe_cases h0 hx with ⟨-, rfl⟩ | ⟨idx, n, hmiss | ⟨e, hhit⟩, rfl⟩
    · cases ht
    · obtain ⟨-, -, hidx, hempty⟩ := probe_miss hmiss
      simp [hit_setScratch s hidx, hempty, hmiss]
    · obtain ⟨-, hwalk, hread, -⟩ := probe_hit hhit
      have hidx : idx < Config.tableSize := hwalk ▸ walkSlot_lt p b n
      simp [hit_setScratch s hidx, hread, hhit]

/-- Settles O36: the reset state has R36's values, and those meet the invariant (`inv_of_fresh`). -/
theorem resetMeetsInvariant : Obligations.ResetMeetsInvariant := inv_reset

end Sys2Proof.Proofs
end

section
/-! What an instruction does to the dictionary table (20_memory.md R54, R55, R57; 40_dictionary.md R105). -/

namespace Sys2Proof.Machine

@[simp] theorem emitted_table (c : Code) (s : State) : (emitted c s).table = s.table := by
  rw [emitted_eta]

@[simp] theorem flush_table (s : State) : (flush s).table = s.table := by
  rw [flush_eta]

/-- BYTE stores exactly on a miss in RUNNING while the code space lasts, at the slot of the miss (41_encoder_loop.md R134). -/
theorem storedSlot_byte_eq_some_iff {b : Byte} {s : State} {a : Nat} :
    storedSlot (.byte b) s = some a ↔
      s.state = .running ∧ dictFull s = false ∧ ∃ n, probe s.table (readCur s) b = .miss a n := by
  by_cases hroom : s.state = .running ∧ dictFull s = false
  · cases hp : probe s.table (readCur s) b <;> simp [storedSlot, hroom, hp]
  · simp only [storedSlot, if_neg hroom, reduceCtorEq, false_iff]
    exact fun ⟨hrun, hfull, _⟩ => hroom ⟨hrun, hfull⟩

/-- The entry an instruction writes to its `storedSlot`: BYTE the pair it missed with the code `next`, INSERT its operands. -/
def storedEntry (i : Instr) (s : State) : Option Entry :=
  match i with
  | .byte b => some ⟨readCur s, b, s.next⟩
  | .insert _ p b c => some ⟨p, b, c⟩
  | _ => none

/-- What BYTE can do to the table in a healthy core (41_encoder_loop.md R134, R137). -/
theorem execByte_table {b : Byte} {s t : State} (h0 : s.fault = 0#2) (hx : exec (.byte b) s = .next t) :
    (t.table = s.table ∧ ∀ a, storedSlot (.byte b) s ≠ some a) ∨
    (∃ a, storedSlot (.byte b) s = some a ∧ a < Config.tableSize ∧
      t.table = tableWrite s.table a (storedEntry (.byte b) s)) := by
  rcases execByte_cases h0 hx with ⟨hprotocol, rfl⟩ | ⟨hstart, rfl⟩ | ⟨-, idx, n, e, hhit, rfl⟩ | ⟨hrun, -, idx, n, hmiss, rfl⟩ |
    ⟨-, hoverflow, rfl⟩
  · have hrun : s.state ≠ .running := fun hs => by simp [protocolIn, hs] at hprotocol
    exact Or.inl ⟨rfl, fun a => by simp [storedSlot_byte_eq_some_iff, hrun]⟩
  · exact Or.inl ⟨rfl, fun a => by simp [storedSlot_byte_eq_some_iff, hstart]⟩
  · exact Or.inl ⟨rfl, fun a => by simp [storedSlot_byte_eq_some_iff, hhit]⟩
  · cases hfull : dictFull s with
    | true => exact Or.inl ⟨rfl, fun a => by simp [storedSlot_byte_eq_some_iff, hfull]⟩
    | false =>
      obtain ⟨-, -, hidx, -⟩ := probe_miss hmiss
      exact Or.inr ⟨idx, storedSlot_byte_eq_some_iff.2 ⟨hrun, hfull, n, hmiss⟩, hidx, rfl⟩
  · exact Or.inl ⟨rfl, fun a => by simp [storedSlot_byte_eq_some_iff, hoverflow]⟩

/-- An instruction that stores to no slot and is not INIT leaves the table as it was. -/
theorem exec_table_of_no_store {i : Instr} {s t : State} (h0 : s.fault = 0#2) (hx : exec i s = .next t) (hinit : i ≠ .init)
    (hslot : ∀ a, storedSlot i s ≠ some a) : t.table = s.table := by
  have hpacked : ∀ c, encode i = .code c ∨ i = .emit c → t.table = s.table := fun c hi => by
    rw [(execPacked_cases h0 hi hx).2, emitted_table]
  cases i with
  | init => exact absurd rfl hinit
  | byte b =>
    rcases execByte_table h0 hx with ⟨hsame, -⟩ | ⟨a, ha, -⟩
    · exact hsame
    · exact absurd ha (hslot a)
  | insert j p b c => exact absurd rfl (hslot j.toNat)
  | endOfInput =>
    rcases execEndOfInput_cases h0 hx with ⟨-, rfl⟩ | ⟨-, ht, -⟩
    · rfl
    · rw [ht]
  | abort r => rw [execAbort_cases h0 hx]
  | lit b => exact hpacked _ (Or.inl rfl)
  | str c => exact hpacked _ (Or.inl rfl)
  | eos => exact hpacked _ (Or.inl rfl)
  | emit c => exact hpacked _ (Or.inr rfl)
  | flush => rw [execFlush_cases h0 hx, flush_table]
  | hash p b => rw [execHash_cases h0 hx]
  | offset j => rw [(execOffset_cases h0 hx).2]
  | probe p b =>
    rcases execProbe_cases h0 hx with ⟨-, rfl⟩ | ⟨idx, n, -, rfl⟩
    · rfl
    · rfl

/-- What an instruction can do to the table: nothing, empty it, as a legal INIT, or write its entry to its slot. -/
theorem exec_table_cases {i : Instr} {s t : State} (hx : exec i s = .next t) :
    (t.table = s.table ∧ (s.fault = 0#2 → ∀ a, storedSlot i s ≠ some a) ∧ (i = .init → t.fault ≠ 0#2)) ∨
    (i = .init ∧ t.fault = 0#2 ∧ t.table = []) ∨
    (∃ a, storedSlot i s = some a ∧ a < Config.tableSize ∧ t.table = tableWrite s.table a (storedEntry i s) ∧ i ≠ .init) := by
  by_cases h0 : s.fault = 0#2
  · cases i with
    | init =>
      rcases execInit_cases h0 hx with ⟨-, rfl⟩ | ⟨-, rfl⟩
      · exact Or.inl ⟨rfl, fun _ _ => nofun, fun _ => causeCode_ne_zero .protocol⟩
      · exact Or.inr (Or.inl ⟨rfl, h0, rfl⟩)
    | byte b =>
      rcases execByte_table h0 hx with ⟨hsame, hslot⟩ | ⟨a, hslot, ha, hwrite⟩
      · exact Or.inl ⟨hsame, fun _ => hslot, nofun⟩
      · exact Or.inr (Or.inr ⟨a, hslot, ha, hwrite, nofun⟩)
    | insert j p b c =>
      obtain ⟨hj, rfl⟩ := execInsert_cases h0 hx
      exact Or.inr (Or.inr ⟨j.toNat, rfl, hj, rfl, nofun⟩)
    | _ => exact Or.inl ⟨exec_table_of_no_store h0 hx nofun (fun _ => nofun), fun _ _ => nofun, nofun⟩
  · rw [exec_of_faulted i h0] at hx
    cases hx
    exact Or.inl ⟨rfl, fun h => absurd h h0, fun _ => h0⟩

end Sys2Proof.Machine
end

section
/-! What an instruction does to the output trace (20_memory.md R56, R59). -/

namespace Sys2Proof.Machine

theorem outPersist_notMem_byteEvents (bs : List Byte) : OutEvent.outPersist ∉ byteEvents bs := by
  simp [byteEvents]

/-- EMIT appends bytes to the trace (42_bit_packer.md R171). -/
theorem emitted_out (c : Code) (s : State) : ∃ bs, (emitted c s).out = s.out ++ byteEvents bs := by
  obtain ⟨bs, h⟩ := emitted_frame c s
  exact ⟨bs, congrArg State.out h⟩

/-- FLUSH appends bytes and then the persist marker (42_bit_packer.md R173). -/
theorem flush_out (s : State) : ∃ bs, (flush s).out = s.out ++ (byteEvents bs ++ [.outPersist]) := by
  obtain ⟨bs, h⟩ := flush_frame s
  exact ⟨bs, (congrArg State.out h).trans (List.append_assoc _ _ _)⟩

/-- What an instruction can append to the trace in a healthy core: nothing; bytes, as a packing instruction or as BYTE in
RUNNING; or bytes and then the persist marker, as FLUSH or a legal END. -/
theorem exec_out_cases {i : Instr} {s t : State} (h0 : s.fault = 0#2) (hx : exec i s = .next t) :
    (t.out = s.out ∧ (i = .endOfInput ∨ i = .flush → t.fault ≠ 0#2)) ∨
    (¬ (i = .endOfInput ∨ i = .flush) ∧ (i.format = .cmd → s.state = .running) ∧
      ∃ bs, t.out = s.out ++ byteEvents bs) ∨
    ((i = .endOfInput ∧ s.state ≠ .done ∨ i = .flush) ∧ ∃ bs, t.out = s.out ++ (byteEvents bs ++ [.outPersist])) := by
  have hpacked : ∀ c, encode i = .code c ∨ i = .emit c → ∃ bs, t.out = s.out ++ byteEvents bs := fun c hi => by
    rw [(execPacked_cases h0 hi hx).2]
    exact emitted_out c s
  cases i with
  | init =>
    rcases execInit_cases h0 hx with ⟨-, rfl⟩ | ⟨-, rfl⟩
    · exact Or.inl ⟨rfl, nofun⟩
    · exact Or.inl ⟨rfl, nofun⟩
  | byte b =>
    rcases execByte_cases h0 hx with ⟨-, rfl⟩ | ⟨-, rfl⟩ | ⟨-, idx, n, e, -, rfl⟩ | ⟨hrun, -, idx, n, -, rfl⟩ | ⟨-, -, rfl⟩
    · exact Or.inl ⟨rfl, nofun⟩
    · exact Or.inl ⟨rfl, nofun⟩
    · exact Or.inl ⟨rfl, nofun⟩
    · exact Or.inr (Or.inl ⟨nofun, fun _ => hrun, emitted_out (readCur s) s⟩)
    · exact Or.inl ⟨rfl, nofun⟩
  | endOfInput =>
    rcases execEndOfInput_cases h0 hx with ⟨-, rfl⟩ | ⟨hlegal, -, bs, hout⟩
    · exact Or.inl ⟨rfl, fun _ => causeCode_ne_zero .protocol⟩
    · have hstate : s.state ≠ .done := fun hdone => by simp [protocolIn, hdone] at hlegal
      exact Or.inr (Or.inr ⟨Or.inl ⟨rfl, hstate⟩, bs, hout.trans (List.append_assoc _ _ _)⟩)
  | abort r =>
    rw [execAbort_cases h0 hx]
    exact Or.inl ⟨rfl, nofun⟩
  | lit b => exact Or.inr (Or.inl ⟨nofun, nofun, hpacked _ (Or.inl rfl)⟩)
  | str c => exact Or.inr (Or.inl ⟨nofun, nofun, hpacked _ (Or.inl rfl)⟩)
  | eos => exact Or.inr (Or.inl ⟨nofun, nofun, hpacked _ (Or.inl rfl)⟩)
  | emit c => exact Or.inr (Or.inl ⟨nofun, nofun, hpacked _ (Or.inr rfl)⟩)
  | flush =>
    rw [execFlush_cases h0 hx]
    exact Or.inr (Or.inr ⟨Or.inr rfl, flush_out s⟩)
  | hash p b =>
    rw [execHash_cases h0 hx]
    exact Or.inl ⟨rfl, nofun⟩
  | offset j =>
    rw [(execOffset_cases h0 hx).2]
    exact Or.inl ⟨rfl, nofun⟩
  | probe p b =>
    rcases execProbe_cases h0 hx with ⟨-, rfl⟩ | ⟨idx, n, -, rfl⟩
    · exact Or.inl ⟨rfl, nofun⟩
    · exact Or.inl ⟨rfl, nofun⟩
  | insert j p b c =>
    rw [(execInsert_cases h0 hx).2]
    exact Or.inl ⟨rfl, nofun⟩

end Sys2Proof.Machine
end

section
/-! Where the model stops by name (20_memory.md R57; 93_implementation_defined.md U19, U21). -/

namespace Sys2Proof.Machine

theorem memWrite_of_not_namesSlot {i : Index} (h : ¬ i.namesSlot) (v : Option Entry) (s : State) :
    memWrite i.toNat v s = .fault (.noSuchSlot i) := by
  rw [memWrite, if_neg h, BitVec.ofNat_toNat, BitVec.setWidth_eq]

/-- EMIT and the output codes are `emit` in a healthy core (42_bit_packer.md R171; log entry 9). -/
theorem exec_eq_emit {i : Instr} {c : Code} {s : State} (h0 : s.fault = 0#2) (hi : encode i = .code c ∨ i = .emit c) :
    exec i s = emit c s := by
  rcases hi with hcode | rfl
  · cases i <;> cases hcode <;> exact whenHealthy_of_healthy h0 _
  · exact whenHealthy_of_healthy h0 _

theorem finishRun_of_gt {s : State} (h : 20 < s.cnt.toNat) : finishRun s = .refused (.negativeShift s.cnt) := by
  rw [finishRun, emit_of_gt h, andThen_refused]

theorem execEndOfInput_of_gt {s : State} (h0 : s.fault = 0#2) (hs : s.state = .start ∨ s.state = .running)
    (h : 20 < s.cnt.toNat) : exec .endOfInput s = .refused (.negativeShift s.cnt) := by
  rw [exec, execEndOfInput, whenHealthy_of_healthy h0]
  rcases hs with hs | hs
  · simp only [hs, finishRun_of_gt h]
  · simp only [hs, emit_of_gt h, andThen_refused]

theorem execByte_of_miss_of_gt {b : Byte} {s : State} {idx n : Nat} (h0 : s.fault = 0#2) (hs : s.state = .running)
    (hmiss : probe s.table (readCur s) b = .miss idx n) (h : 20 < s.cnt.toNat) :
    exec (.byte b) s = .refused (.negativeShift s.cnt) := by
  rw [exec, execByte, whenHealthy_of_healthy h0]
  simp only [hs, mainLoop, hmiss, emit_of_gt h, andThen_refused]

end Sys2Proof.Machine

namespace Sys2Proof.Proofs

open Sys2Proof.Machine

/-- Settles O34: the three cases of `exec_table_cases`; a write is read back at its slot and is not seen at the others. -/
theorem tableFrame : Obligations.TableFrame := by
  intro i s t hwf hx
  rcases exec_table_cases hx with ⟨hsame, hslot, hfault⟩ | ⟨rfl, h0, hclear⟩ | ⟨a, hslot, -, hwrite, hinit⟩
  · rw [hsame]
    refine ⟨fun _ _ _ => rfl, fun hi h0 => absurd h0 (hfault hi), fun _ _ => rfl, ?byte, ?insert⟩
    case byte => exact fun b a _ h0 ha => absurd ha (hslot h0 a)
    case insert =>
      rintro j p b c rfl h0
      exact absurd rfl (hslot h0 j.toNat)
  · rw [hclear]
    exact ⟨fun hi => absurd rfl hi, fun _ _ _ => rfl, fun _ hf => absurd h0 hf, nofun, nofun⟩
  · rw [hwrite]
    refine ⟨fun _ a' ha' => ?other, fun hi => absurd hi hinit, fun hi => absurd hi hinit, ?byte, ?insert⟩
    case other =>
      have hne : a' ≠ a := fun h => ha' (h ▸ hslot)
      exact tableRead_tableWrite_other _ hwf hne
    case byte =>
      rintro b a' rfl - ha'
      cases hslot.symm.trans ha'
      exact tableRead_tableWrite_same _ _ _
    case insert =>
      rintro j p b c rfl -
      cases hslot
      exact tableRead_tableWrite_same _ _ _

/-- Settles O35: the three cases of `exec_out_cases`; the persist marker is no byte event. -/
theorem outputIsAppendOnly : Obligations.OutputIsAppendOnly := by
  intro i s t hx
  by_cases h0 : s.fault = 0#2
  · rcases exec_out_cases h0 hx with ⟨hsame, hfault⟩ | ⟨hother, hstate, bs, hout⟩ | ⟨hi, bs, hout⟩
    · exact ⟨[], by simp [hsame], nofun, fun hi _ ht => absurd ht (hfault hi), fun _ _ => rfl, fun _ => rfl⟩
    · refine ⟨byteEvents bs, hout, fun hmem => absurd hmem (outPersist_notMem_byteEvents bs), fun hi => absurd hi hother,
        fun hdone hcmd => ?done, fun hf => absurd h0 hf⟩
      case done =>
        have hrun := hstate hcmd
        simp [hdone] at hrun
    · refine ⟨_, hout, fun _ => hi.imp And.left id, fun _ _ _ => ⟨bs, rfl⟩, fun hdone hcmd => ?done,
        fun hf => absurd h0 hf⟩
      case done =>
        rcases hi with ⟨-, hne⟩ | rfl
        · exact absurd hdone hne
        · cases hcmd
  · rw [exec_of_faulted i h0] at hx
    cases hx
    exact ⟨[], (List.append_nil _).symm, nofun, fun _ h => absurd h h0, fun _ _ => rfl, fun _ => rfl⟩

/-- Settles O40: what `exec_table_cases` allows keeps the form: the same table, the empty one, a write to a slot that exists. -/
theorem instructionsKeepTableCanonical : Obligations.InstructionsKeepTableCanonical := by
  intro i s t hwf hx
  rcases exec_table_cases hx with ⟨hsame, -⟩ | ⟨-, -, hclear⟩ | ⟨a, -, ha, hwrite, -⟩
  · rw [hsame]
    exact hwf
  · rw [hclear]
    exact reset_table_wf
  · rw [hwrite]
    exact tableWrite_wf _ hwf ha

/-- Settles O31: each stop is an equation of its operation in a healthy core. -/
theorem stopsByName : Obligations.StopsByName := by
  intro s h0
  refine ⟨?offset, ?insert, ?packed, execEndOfInput_of_gt h0, fun b idx n hs hmiss => execByte_of_miss_of_gt h0 hs hmiss⟩
  case offset =>
    intro i hi
    have hslot : ¬ i.namesSlot := Nat.not_lt.2 hi
    rw [exec, execOffset, whenHealthy_of_healthy h0, if_neg hslot]
  case insert =>
    intro i p b c hi
    have hslot : ¬ i.namesSlot := Nat.not_lt.2 hi
    rw [exec, execInsert, whenHealthy_of_healthy h0, insertEntry, memWrite_of_not_namesSlot hslot]
  case packed =>
    intro i c hi
    rw [exec_eq_emit h0 hi]
    exact ⟨emit_of_gt, fun hcnt => ⟨_, emit_eq_next_iff.2 ⟨hcnt, rfl⟩⟩⟩

end Sys2Proof.Proofs
end

section
/-! Encodings: the fields and the mask of a command word, and what encoder and decoder say of each other
(30_encoding.md R70 to R73). -/

namespace Sys2Proof

@[simp] theorem cmdOp_cmdWord (op : BitVec 2) (data : Byte) : cmdOp (cmdWord op data) = op :=
  BitVec.extractLsb'_append_eq_left

@[simp] theorem cmdData_cmdWord (op : BitVec 2) (data : Byte) : cmdData (cmdWord op data) = data :=
  BitVec.extractLsb'_append_eq_right

theorem toNat_cmdWord (op : BitVec 2) (data : Byte) : (cmdWord op data).toNat = 256 * op.toNat + data.toNat := by
  rw [cmdWord, BitVec.toNat_append, Nat.shiftLeft_eq, Nat.mul_comm]
  exact (Nat.two_pow_add_eq_or_of_lt data.isLt op.toNat).symm

/-- The mask `0x300` of BYTE and ABORT keeps `op` and clears `data` (30_encoding.md R71). -/
theorem cmdWord_and_opMask (op : BitVec 2) (data : Byte) : cmdWord op data &&& 0x300#10 = cmdWord op 0#8 := by
  have hmask : 0x300#10 = cmdWord (BitVec.allOnes 2) 0#8 := rfl
  rw [hmask, cmdWord, cmdWord, BitVec.and_append, BitVec.and_allOnes, BitVec.and_zero, cmdWord]

/-- A word is `{op, data}` exactly if it matches `op` under the mask `0x300` and has `data` in its low byte
(30_encoding.md R71). -/
theorem cmdWord_eq_iff (op : BitVec 2) (data : Byte) (w : CmdWord) :
    cmdWord op data = w ↔ w &&& 0x300#10 = cmdWord op 0#8 ∧ w.setWidth 8 = data := by
  constructor
  · rintro rfl
    exact ⟨cmdWord_and_opMask op data, BitVec.setWidth_append_eq_right⟩
  · rintro ⟨hmatch, hdata⟩
    have hop : cmdOp w = op := by
      rw [← cmdWord_cmdOp_cmdData w, cmdWord_and_opMask] at hmatch
      exact (BitVec.append_left_inj _).1 hmatch
    have hlow : cmdData w = data := (BitVec.setWidth_eq_extractLsb' (by decide)).symm.trans hdata
    rw [← hop, ← hlow, cmdWord_cmdOp_cmdData]

/-- `match | data`: the operand of a command fills the low byte of its match (30_encoding.md R71). -/
theorem match_or_data (op : BitVec 2) (data : Byte) : cmdWord op 0#8 ||| data.setWidth 10 = cmdWord op data := by
  have hdata : data.setWidth 10 = cmdWord 0#2 data := BitVec.setWidth_eq_append (by decide)
  rw [hdata, cmdWord, cmdWord, BitVec.or_append, BitVec.or_zero, BitVec.zero_or, cmdWord]

/-- A word decodes to a command exactly if it is the command's encoding (30_encoding.md R71). -/
theorem decode_eq_command_iff {w : CmdWord} {i : Instr} : decode w = .command i ↔ encode i = .command w := by
  refine ⟨encode_of_decode, fun h => ?_⟩
  cases i with
  | init => cases h; rfl
  | byte b => cases h; simp [decode, byteWord]
  | endOfInput => cases h; rfl
  | abort r => cases h; simp [decode, abortWord]
  | lit | str | eos | hash | offset | probe | insert | emit | flush => cases h

/-- Every command is well formed: an 8-bit operand has no range (30_encoding.md R71, R72). -/
theorem wellFormed_of_encode_command {w : CmdWord} {i : Instr} (h : encode i = .command w) : i.wellFormed = true := by
  cases i <;> cases h <;> rfl

theorem decodeEncoding_command_eq_some_iff {w : CmdWord} {i : Instr} :
    decodeEncoding (.command w) = some i ↔ encode i = .command w := by
  rw [← decode_eq_command_iff, decodeEncoding]
  cases decode w <;> simp

/-- Below 256 a code is the literal of its low byte (30_encoding.md R73). -/
theorem decodeCode_literal (b : Byte) : decodeCode (b.setWidth 12) = .lit b := by
  have hlit : (b.setWidth 12 : Code).toNat < Config.firstCode := by
    rw [BitVec.toNat_setWidth_of_le (by decide)]
    exact b.isLt
  rw [decodeCode, if_pos hlit, BitVec.extractLsb'_setWidth_of_le (by decide), BitVec.extractLsb'_eq_self]

/-- An assignable code is the code of an entry (30_encoding.md R73). -/
theorem decodeCode_assignable {c : Code} (h : c.assignable) : decodeCode c = .str c := by
  obtain ⟨hlow, hhigh⟩ := h
  have hmax : c.toNat ≠ Config.maxValue := Nat.ne_of_lt (Nat.lt_succ_of_le hhigh)
  rw [decodeCode, if_neg (Nat.not_lt.2 hlow), if_neg hmax]

theorem setWidth_extractLsb'_of_lt {c : Code} (h : c.toNat < Config.firstCode) : (c.extractLsb' 0 8).setWidth 12 = c := by
  apply BitVec.eq_of_toNat_eq
  have hlow : c.toNat % 2 ^ 8 = c.toNat := Nat.mod_eq_of_lt h
  rw [BitVec.toNat_setWidth_of_le (by decide), BitVec.extractLsb'_toNat, Nat.shiftRight_zero, hlow]

/-- The class of a code determines the code, and the operand of a class is in the class's range (30_encoding.md R73). -/
theorem encode_decodeCode (c : Code) : encode (decodeCode c) = .code c ∧ (decodeCode c).wellFormed = true := by
  by_cases hlit : c.toNat < Config.firstCode
  · rw [decodeCode, if_pos hlit]
    exact ⟨congrArg _ (setWidth_extractLsb'_of_lt hlit), rfl⟩
  · by_cases heos : c.toNat = Config.maxValue
    · rw [decodeCode, if_neg hlit, if_pos heos]
      have hc : 0xFFF#12 = c := BitVec.eq_of_toNat_eq heos.symm
      exact ⟨congrArg _ hc, rfl⟩
    · have hassign : c.assignable :=
        ⟨Nat.not_lt.1 hlit, Nat.le_of_lt_succ (Nat.lt_of_le_of_ne (Nat.le_of_lt_succ c.isLt) heos)⟩
      rw [decodeCode_assignable hassign]
      exact ⟨rfl, decide_eq_true hassign⟩

/-- Decoding an encoded output code (30_encoding.md R73). -/
theorem decodeCode_of_encode {i : Instr} {c : Code} (hwf : i.wellFormed = true) (h : encode i = .code c) :
    decodeCode c = i := by
  cases i with
  | lit b => cases h; exact decodeCode_literal b
  | str d => cases h; exact decodeCode_assignable (of_decide_eq_true hwf)
  | eos => cases h; rfl
  | init | byte | endOfInput | abort | hash | offset | probe | insert | emit | flush => cases h

theorem format_encode (i : Instr) : (encode i).format = i.format := by
  cases i <;> rfl

/-- A reserved word is the encoding of no instruction (30_encoding.md R72). -/
theorem encode_ne_of_reserved {w : CmdWord} (h : (0x001#10 ≤ w ∧ w ≤ 0x0FF#10) ∨ (0x201#10 ≤ w ∧ w ≤ 0x2FF#10))
    (i : Instr) : encode i ≠ .command w := by
  intro henc
  cases i with
  | init => cases henc; revert h; decide
  | byte b =>
    cases henc
    have hw : (byteWord b).toNat = 256 + b.toNat := toNat_cmdWord 1#2 b
    bv_omega
  | endOfInput => cases henc; revert h; decide
  | abort r =>
    cases henc
    have hw : (abortWord r).toNat = 768 + r.toNat := toNat_cmdWord 3#2 r
    bv_omega
  | lit | str | eos | hash | offset | probe | insert | emit | flush => cases henc

end Sys2Proof
end

section
/-! PROTOCOL: a reserved word and a command that is illegal in the present state (30_encoding.md R72; 41_encoder_loop.md R131). -/

namespace Sys2Proof.Machine

/-- A word that encodes no command is rejected (30_encoding.md R72). -/
theorem acceptCommand_of_not_encoded {w : CmdWord} (h : ∀ i, encode i ≠ .command w) (s : State) :
    acceptCommand w s = rejectReserved w s := by
  cases hdec : decode w with
  | command i => exact absurd (encode_of_decode hdec) (h i)
  | reservedInit data => simp only [acceptCommand, hdec]
  | reservedEnd data => simp only [acceptCommand, hdec]

/-- PROTOCOL in a healthy core: cause 2 and the word, nothing else (60_exceptions.md R191, R194). -/
theorem raiseProtocol_of_healthy {s : State} (h0 : s.fault = 0#2) (w : CmdWord) :
    raiseProtocol w s = { s with fault := 2#2, faultInfo := w.setWidth 16 } :=
  raise_of_healthy h0 .protocol (zext16 w)

theorem rejectReserved_of_healthy {s : State} (h0 : s.fault = 0#2) (w : CmdWord) :
    rejectReserved w s = .next { s with fault := 2#2, faultInfo := w.setWidth 16 } := by
  rw [rejectReserved, whenHealthy_of_healthy h0, raiseProtocol_of_healthy h0]

/-- A command that is not legal in the present state raises PROTOCOL with its own word (41_encoder_loop.md R131). -/
theorem exec_of_protocolIn {i : Instr} {w : CmdWord} {s : State} (h0 : s.fault = 0#2) (hi : encode i = .command w)
    (hp : protocolIn i s.state = true) : exec i s = .next { s with fault := 2#2, faultInfo := w.setWidth 16 } := by
  rw [← raiseProtocol_of_healthy h0]
  cases i with
  | init =>
    cases hi
    rw [exec, execInit, whenHealthy_of_healthy h0]
    cases hs : s.state with
    | start | done => simp [protocolIn, hs] at hp
    | running | flushing => rfl
  | byte b =>
    cases hi
    rw [exec, execByte, whenHealthy_of_healthy h0]
    cases hs : s.state with
    | start | running => simp [protocolIn, hs] at hp
    | flushing | done => rfl
  | endOfInput =>
    cases hi
    rw [exec, execEndOfInput, whenHealthy_of_healthy h0]
    cases hs : s.state with
    | start | running => simp [protocolIn, hs] at hp
    | flushing | done => rfl
  | abort | lit | str | eos | hash | offset | probe | insert | emit | flush => cases hp

end Sys2Proof.Machine
end

section
/-! The bits EMIT packs (42_bit_packer.md R171, R172). -/

namespace Sys2Proof.Machine

/-- P-b of 42_bit_packer.md R174, bit by bit: below the pending bits the accumulator is 0. -/
theorem getLsbD_below_pending {acc : BitVec 32} {k j : Nat} (h : acc <<< k = 0#32) (hj : j + k < 32) :
    acc.getLsbD j = false := by
  have hbit : (acc <<< k).getLsbD (j + k) = acc.getLsbD j := by
    rw [BitVec.getLsbD_shiftLeft]
    simp [hj]
  rw [← hbit, h, BitVec.getLsbD_zero]

/-- Where the bits of a placed code lie: bit `i` of the code at position `20 - k + i`, zeros elsewhere
(30_encoding.md R77 (d)). -/
theorem getLsbD_placeCode (c : Code) (k j : Nat) :
    (placeCode c k).getLsbD j = (decide (j < 32) && !decide (j < 20 - k) && c.getLsbD (j - (20 - k))) := by
  rw [placeCode, BitVec.getLsbD_shiftLeft, BitVec.getLsbD_setWidth]
  by_cases hj : j < 32
  · simp [hj, show j - (20 - k) < 32 by omega]
  · simp [hj]

/-- Pushing appends the code's 12 bits to the pending ones (42_bit_packer.md R171). -/
theorem pendingBits_pushBits (c : Code) {s : State} (hcnt : s.cnt.toNat ≤ 19) (hacc : s.acc <<< s.cnt.toNat = 0#32) :
    pendingBits (pushBits c s) = pendingBits s ++ codeBits c := by
  have hlen : (s.cnt + 12#5).toNat = s.cnt.toNat + 12 := by bv_omega
  simp only [pendingBits, codeBits, pushBits_acc, pushBits_cnt, hlen, List.range_add, List.map_append, List.map_map]
  congr 1
  · refine List.map_congr_left fun j hj => ?_
    have hj : j < s.cnt.toNat := List.mem_range.1 hj
    have hplaced : (placeCode c s.cnt.toNat).getLsbD (31 - j) = false := by
      rw [getLsbD_placeCode, BitVec.getLsbD_of_ge _ _ (by omega), Bool.and_false]
    rw [BitVec.getLsbD_or, hplaced, Bool.or_false]
  · refine List.map_congr_left fun j hj => ?_
    have hj : j < 12 := List.mem_range.1 hj
    have hold : s.acc.getLsbD (31 - (s.cnt.toNat + j)) = false := getLsbD_below_pending hacc (by omega)
    rw [Function.comp_apply, BitVec.getLsbD_or, hold, Bool.false_or, getLsbD_placeCode,
      show 31 - (s.cnt.toNat + j) - (20 - s.cnt.toNat) = 11 - j by omega]
    simp [show 31 - (s.cnt.toNat + j) < 32 by omega, show 20 - s.cnt.toNat ≤ 31 - (s.cnt.toNat + j) by omega]

/-- Draining takes the eight oldest pending bits off as the output byte (42_bit_packer.md R171). -/
theorem byteBits_append_pendingBits_drainByte {s : State} (h : 8 ≤ s.cnt.toNat) :
    byteBits (topByte s.acc) ++ pendingBits (drainByte s) = pendingBits s := by
  have hlen : s.cnt.toNat = 8 + (s.cnt - 8#5).toNat := by bv_omega
  simp only [pendingBits, byteBits, drainByte_acc, drainByte_cnt]
  rw [hlen, List.range_add, List.map_append, List.map_map]
  have hcnt := s.cnt.isLt
  congr 1
  · refine List.map_congr_left fun j hj => ?_
    have hj : j < 8 := List.mem_range.1 hj
    rw [topByte, BitVec.getLsbD_extractLsb', show 24 + (7 - j) = 31 - j by omega]
    simp [show 7 - j < 8 by omega]
  · refine List.map_congr_left fun j hj => ?_
    have hj : j < (s.cnt - 8#5).toNat := List.mem_range.1 hj
    rw [Function.comp_apply, BitVec.getLsbD_shiftLeft, show 31 - (8 + j) = 31 - j - 8 by omega]
    simp [show 8 ≤ 31 - j by omega, show 31 - j < 32 by omega]

/-- Draining moves bits from the buffer to the trace and loses none (42_bit_packer.md R171). -/
theorem drainLoop_bits (fuel : Nat) (s : State) :
    ∃ bs, (drainLoop fuel s).out = s.out ++ byteEvents bs ∧
      bs.flatMap byteBits ++ pendingBits (drainLoop fuel s) = pendingBits s := by
  induction fuel generalizing s with
  | zero => exact ⟨[], by simp [drainLoop, byteEvents]⟩
  | succ fuel ih =>
    rw [drainLoop]
    split
    case isTrue h8 =>
      obtain ⟨bs, hout, hbits⟩ := ih (drainByte s)
      refine ⟨topByte s.acc :: bs, ?out, ?bits⟩
      case out => rw [hout, drainByte_out, List.append_assoc]; rfl
      case bits => rw [List.flatMap_cons, List.append_assoc, hbits, byteBits_append_pendingBits_drainByte h8]
    case isFalse => exact ⟨[], by simp [byteEvents]⟩

/-- EMIT appends the code's 12 bits to the stream: the bytes it writes and the bits it leaves pending are the bits pending
before, and then the code's (42_bit_packer.md R171). -/
theorem emitted_bits (c : Code) {s : State} (hcnt : s.cnt.toNat ≤ 19) (hacc : s.acc <<< s.cnt.toNat = 0#32) :
    ∃ bs, (emitted c s).out = s.out ++ byteEvents bs ∧
      bs.flatMap byteBits ++ pendingBits (emitted c s) = pendingBits s ++ codeBits c :=
  pendingBits_pushBits c hcnt hacc ▸ drainLoop_bits 3 (pushBits c s)

end Sys2Proof.Machine

namespace Sys2Proof.Proofs

open Sys2Proof.Machine

/-- Settles O4: commands by `decode_eq_command_iff`, output codes by the class of their value, and no bits decode to nothing. -/
theorem decodeInvertsEncode : Obligations.DecodeInvertsEncode := by
  constructor
  case left =>
    intro i hwf hext
    rw [← format_encode] at hext
    cases henc : encode i with
    | command w => exact decodeEncoding_command_eq_some_iff.2 henc
    | code c => exact congrArg some (decodeCode_of_encode hwf henc)
    | internal => exact absurd (congrArg Encoding.format henc) hext
  case right =>
    intro e i hdec
    cases e with
    | command w =>
      have henc := decodeEncoding_command_eq_some_iff.1 hdec
      exact ⟨henc, wellFormed_of_encode_command henc⟩
    | code c =>
      cases hdec
      exact encode_decodeCode c
    | internal => cases hdec

/-- Settles O10: a reserved word encodes no command, `match | data` is the word of every BYTE and ABORT, and an illegal command
raises with its own word. -/
theorem reservedWordsRaiseProtocol : Obligations.ReservedWordsRaiseProtocol := by
  refine ⟨?reserved, fun b => ⟨?byte, ?abort⟩, ?illegal⟩
  case reserved =>
    intro s w rest h0 hin hres
    calc step s = acceptCommand w { s with input := rest } := step_of_command hin
      _ = rejectReserved w { s with input := rest } := acceptCommand_of_not_encoded (encode_ne_of_reserved hres) _
      _ = _ := rejectReserved_of_healthy (s := { s with input := rest }) h0 w
  case byte => exact decode_eq_command_iff.2 (congrArg Encoding.command (match_or_data 1#2 b).symm)
  case abort => exact decode_eq_command_iff.2 (congrArg Encoding.command (match_or_data 3#2 b).symm)
  case illegal =>
    intro s w rest i h0 hin hdec hp
    calc step s = acceptCommand w { s with input := rest } := step_of_command hin
      _ = exec i { s with input := rest } := acceptCommand_of_decode hdec _
      _ = _ := exec_of_protocolIn h0 (encode_of_decode hdec) hp

/-- Settles O30: an output code is EMIT of its encoding, whose frame is `emitted_eta` and whose bits are `emitted_bits`. -/
theorem outputCodesArePacked : Obligations.OutputCodesArePacked := by
  intro i c s hi h0 hcnt hacc
  obtain ⟨bs, hout, hbits⟩ := emitted_bits c (Nat.le_trans hcnt (by decide)) hacc
  refine ⟨emitted c s, bs, ?step, ?frame, hbits⟩
  case step => rw [exec_eq_emit h0 (Or.inl hi), emit_eq_next_iff]; exact ⟨Nat.le_trans hcnt (by decide), rfl⟩
  case frame => rw [← hout]; exact emitted_eta c s

/-- Settles O2: decoding is comparison with the encoding, and that is mask and match; the mask `0x3FF` keeps the whole word. -/
theorem commandWordsDecodeByMaskAndMatch : Obligations.CommandWordsDecodeByMaskAndMatch := by
  intro w
  have hfull : w &&& 0x3FF#10 = w := BitVec.and_allOnes
  simp only [decode_eq_command_iff, encode, Encoding.command.injEq, hfull]
  exact ⟨eq_comm, fun b => cmdWord_eq_iff 1#2 b w, eq_comm, fun r => cmdWord_eq_iff 3#2 r w⟩

/-- Settles O3: the decoders evaluated on the nine words of the tables (a sanity statement). -/
theorem sampleWordsDecode : Obligations.SampleWordsDecode :=
  ⟨rfl, rfl, rfl, rfl, rfl, rfl, rfl, rfl, rfl⟩

end Sys2Proof.Proofs
end

section
/-! The probe walk and what PROBE finds along it (40_dictionary.md R101 to R104, R106). -/

namespace Sys2Proof.Machine

/-- The hash without its reduction: 12 bits fit the table (40_dictionary.md R101). -/
theorem hashIndex_eq_xor (p : Code) (b : Byte) : hashIndex p b = (b.toNat * 16) ^^^ p.toNat := by
  have hshift : (b.setWidth 12 <<< Config.hashShift).toNat = b.toNat * 16 := by
    have hb := b.isLt
    rw [Config.hashShift, BitVec.toNat_shiftLeft, BitVec.toNat_setWidth_of_le (by decide), Nat.shiftLeft_eq]
    omega
  rw [hashIndex, Nat.mod_eq_of_lt (lt_trans (BitVec.isLt _) (by decide)), BitVec.toNat_xor, hshift]

theorem hashIndex_le (p : Code) (b : Byte) : hashIndex p b ≤ 4095 := by
  have hb := b.isLt
  rw [hashIndex_eq_xor]
  exact Nat.le_of_lt_succ (Nat.xor_lt_two_pow (n := 12) (by omega) p.isLt)

theorem hashIndex_eq_zero_iff (p : Code) (b : Byte) : hashIndex p b = 0 ↔ p.toNat = b.toNat * 16 := by
  rw [hashIndex_eq_xor, Nat.xor_eq_zero_iff, eq_comm]

theorem hashIndex_mod_sixteen (p : Code) (b : Byte) : hashIndex p b % 16 = p.toNat % 16 := by
  rw [hashIndex_eq_xor, Nat.xor_mod_two_pow (n := 4)]
  simp

theorem probeOffset_of_ne_zero {i : Nat} (h : i ≠ 0) : probeOffset i = Config.tableSize - i := if_neg h

/-- A probe step is a subtraction modulo the number of slots (40_dictionary.md R103). -/
theorem cast_nextIndex {off : Nat} (h : off ≤ Config.tableSize) (i : Nat) :
    (nextIndex off i : ZMod Config.tableSize) = i - off := by
  unfold nextIndex
  split
  · rw [Nat.cast_sub (by omega), Nat.cast_add, ZMod.natCast_self, add_zero]
  · rw [Nat.cast_sub (by omega)]

/-- The walk is an arithmetic progression modulo the number of slots (40_dictionary.md R104). -/
theorem cast_walkSlot (p : Code) (b : Byte) (k : Nat) :
    (walkSlot p b k : ZMod Config.tableSize) = hashIndex p b - k * probeOffset (hashIndex p b) := by
  induction k with
  | zero => simp [walkSlot]
  | succ k ih =>
    have hoff := (probeOffset_pos (hashIndex_lt p b)).2.le
    have hsucc : walkSlot p b (k + 1) = nextIndex (probeOffset (hashIndex p b)) (walkSlot p b k) :=
      Function.iterate_succ_apply' _ _ _
    rw [hsucc, cast_nextIndex hoff, ih]
    push_cast
    ring

/-- Two slot indices that agree modulo the number of slots are the same slot. -/
theorem eq_of_cast_eq {i j : Nat} (hi : i < Config.tableSize) (hj : j < Config.tableSize)
    (h : (i : ZMod Config.tableSize) = j) : i = j := by
  rwa [ZMod.natCast_eq_natCast_iff', Nat.mod_eq_of_lt hi, Nat.mod_eq_of_lt hj] at h

/-- The walk of an initial index other than 0 (40_dictionary.md R104). -/
theorem walkSlot_of_hashIndex_ne_zero {p : Code} {b : Byte} (h : hashIndex p b ≠ 0) (k : Nat) :
    walkSlot p b k = ((k + 1) * hashIndex p b) % Config.tableSize := by
  refine eq_of_cast_eq (walkSlot_lt p b k) (Nat.mod_lt _ (by decide)) ?_
  have hoff : (probeOffset (hashIndex p b) : ZMod Config.tableSize) = -hashIndex p b := by
    rw [probeOffset_of_ne_zero h, Nat.cast_sub (hashIndex_lt p b).le, ZMod.natCast_self, zero_sub]
  rw [cast_walkSlot, hoff, ZMod.natCast_mod]
  push_cast
  ring

/-- The walk of the initial index 0 (40_dictionary.md R104). -/
theorem walkSlot_of_hashIndex_eq_zero {p : Code} {b : Byte} (h : hashIndex p b = 0) (k : Nat) :
    (walkSlot p b k : Int) = (-(k : Int)) % Config.tableSize := by
  have hlt := walkSlot_lt p b k
  have hmod : (walkSlot p b k : Int) ≡ -(k : Int) [ZMOD Config.tableSize] := by
    rw [← ZMod.intCast_eq_intCast_iff]
    simp [cast_walkSlot, h, probeOffset]
  rw [← hmod.eq, Int.emod_eq_of_lt (by omega) (by omega)]

/-- The number of slots is a prime that the probe step does not divide, so no slot recurs among the first `TABLE_SIZE`
inspections (40_dictionary.md R104). -/
theorem walkSlot_injective {p : Code} {b : Byte} {j k : Nat} (hj : j < Config.tableSize) (hk : k < Config.tableSize)
    (h : walkSlot p b j = walkSlot p b k) : j = k := by
  have : Fact Config.tableSize.Prime := ⟨Config.tableSize_prime⟩
  obtain ⟨hpos, hlt⟩ := probeOffset_pos (hashIndex_lt p b)
  have hoff : (probeOffset (hashIndex p b) : ZMod Config.tableSize) ≠ 0 := fun h0 => by
    have := eq_of_cast_eq hlt (by decide : 0 < Config.tableSize) (by simpa using h0)
    omega
  have hcast := congrArg (Nat.cast : Nat → ZMod Config.tableSize) h
  rw [cast_walkSlot, cast_walkSlot, sub_right_inj] at hcast
  exact eq_of_cast_eq hj hk (mul_right_cancel₀ hoff hcast)

/-- The first `TABLE_SIZE` inspections reach every slot (40_dictionary.md R104). -/
theorem walkSlot_surjective (p : Code) (b : Byte) {i : Nat} (hi : i < Config.tableSize) :
    ∃ k, k < Config.tableSize ∧ walkSlot p b k = i := by
  have hinj : Set.InjOn (walkSlot p b) (Finset.range Config.tableSize) := fun j hj k hk =>
    walkSlot_injective (Finset.mem_range.1 hj) (Finset.mem_range.1 hk)
  have hmaps : Set.MapsTo (walkSlot p b) (Finset.range Config.tableSize) (Finset.range Config.tableSize) :=
    fun k _ => Finset.mem_coe.2 (Finset.mem_range.2 (walkSlot_lt p b k))
  obtain ⟨k, hk, hki⟩ := Finset.surjOn_of_injOn_of_card_le _ hmaps hinj le_rfl (Finset.mem_coe.2 (Finset.mem_range.2 hi))
  exact ⟨k, Finset.mem_range.1 hk, hki⟩

/-- The walk stops at inspection `n`: the slots before hold other pairs, and this one does not. -/
def WalkStops (t : Memory) (p : Code) (b : Byte) (n : Nat) : Prop :=
  ¬ holdsOther t p b (walkSlot p b n) ∧ ∀ k, k < n → holdsOther t p b (walkSlot p b k)

theorem WalkStops.unique {t : Memory} {p : Code} {b : Byte} {k n : Nat} (hk : WalkStops t p b k) (hn : WalkStops t p b n) :
    k = n :=
  le_antisymm (not_lt.1 fun h => hn.1 (hk.2 n h)) (not_lt.1 fun h => hk.1 (hn.2 k h))

theorem not_holdsOther_of_empty {t : Memory} {p : Code} {b : Byte} {i : Nat} (h : tableRead t i = none) :
    ¬ holdsOther t p b i := fun ⟨e, he, _⟩ => by simp [h] at he

theorem not_holdsOther_of_pair {t : Memory} {p : Code} {b : Byte} {i : Nat} {e : Entry} (h : tableRead t i = some e)
    (hp : e.pre = p) (hb : e.byte = b) : ¬ holdsOther t p b i := fun ⟨f, hf, hne⟩ => by
  cases h.symm.trans hf
  exact hne ⟨hp, hb⟩

/-- What PROBE can do: it hits or misses at the inspection where the walk stops, or the walk does not stop
(40_dictionary.md R100, R103, R106). -/
theorem probe_cases (t : Memory) (p : Code) (b : Byte) :
    (∃ n e, n < Config.tableSize ∧ WalkStops t p b n ∧ probe t p b = .hit (walkSlot p b n) n e ∧
      tableRead t (walkSlot p b n) = some e) ∨
    (∃ n, n < Config.tableSize ∧ WalkStops t p b n ∧ probe t p b = .miss (walkSlot p b n) n ∧
      tableRead t (walkSlot p b n) = none) ∨
    (probe t p b = .overflow ∧ ∀ k, k < Config.tableSize → holdsOther t p b (walkSlot p b k)) := by
  rcases probeLoop_cases t p b (probeOffset (hashIndex p b)) Config.tableSize (hashIndex p b) 0 with
    ⟨n, e, hn, hhit, hread, hp, hb, hothers⟩ | ⟨n, hn, hmiss, hread, hothers⟩ | hover
  · rw [Nat.zero_add] at hhit
    exact Or.inl ⟨n, e, hn, ⟨not_holdsOther_of_pair hread hp hb, hothers⟩, hhit, hread⟩
  · rw [Nat.zero_add] at hmiss
    exact Or.inr (Or.inl ⟨n, hn, ⟨not_holdsOther_of_empty hread, hothers⟩, hmiss, hread⟩)
  · exact Or.inr (Or.inr hover)

/-- Where the walk stops, PROBE answers with what the slot holds. -/
theorem probe_of_walkStops {t : Memory} {p : Code} {b : Byte} {n : Nat} (hn : n < Config.tableSize)
    (h : WalkStops t p b n) :
    probe t p b = (tableRead t (walkSlot p b n)).elim (.miss (walkSlot p b n) n) (.hit (walkSlot p b n) n) := by
  rcases probe_cases t p b with ⟨k, e, -, hk, hhit, hread⟩ | ⟨k, -, hk, hmiss, hread⟩ | ⟨-, hall⟩
  · cases hk.unique h
    rw [hhit, hread]
    rfl
  · cases hk.unique h
    rw [hmiss, hread]
    rfl
  · exact absurd (hall n hn) h.1

theorem probe_eq_hit_iff {t : Memory} {p : Code} {b : Byte} {idx n : Nat} {e : Entry} :
    probe t p b = .hit idx n e ↔
      n < Config.tableSize ∧ idx = walkSlot p b n ∧ tableRead t idx = some e ∧ e.pre = p ∧ e.byte = b ∧
      ∀ k, k < n → holdsOther t p b (walkSlot p b k) := by
  constructor
  · intro h
    obtain ⟨hn, hidx, hread, hp, hb⟩ := probe_hit h
    rcases probe_cases t p b with ⟨k, f, -, hk, hhit, -⟩ | ⟨k, -, -, hmiss, -⟩ | ⟨hover, -⟩
    · cases hhit.symm.trans h
      exact ⟨hn, hidx, hread, hp, hb, hk.2⟩
    · cases hmiss.symm.trans h
    · cases hover.symm.trans h
  · rintro ⟨hn, rfl, hread, hp, hb, hothers⟩
    rw [probe_of_walkStops hn ⟨not_holdsOther_of_pair hread hp hb, hothers⟩, hread]
    rfl

theorem probe_eq_miss_iff {t : Memory} {p : Code} {b : Byte} {idx n : Nat} :
    probe t p b = .miss idx n ↔
      n < Config.tableSize ∧ idx = walkSlot p b n ∧ tableRead t idx = none ∧
      ∀ k, k < n → holdsOther t p b (walkSlot p b k) := by
  constructor
  · intro h
    obtain ⟨hn, hidx, -, hread⟩ := probe_miss h
    rcases probe_cases t p b with ⟨k, f, -, -, hhit, -⟩ | ⟨k, -, hk, hmiss, -⟩ | ⟨hover, -⟩
    · cases hhit.symm.trans h
    · cases hmiss.symm.trans h
      exact ⟨hn, hidx, hread, hk.2⟩
    · cases hover.symm.trans h
  · rintro ⟨hn, rfl, hread, hothers⟩
    rw [probe_of_walkStops hn ⟨not_holdsOther_of_empty hread, hothers⟩, hread]
    rfl

theorem probe_eq_overflow_iff {t : Memory} {p : Code} {b : Byte} :
    probe t p b = .overflow ↔ ∀ k, k < Config.tableSize → holdsOther t p b (walkSlot p b k) := by
  rcases probe_cases t p b with ⟨n, e, hn, hstop, hhit, -⟩ | ⟨n, hn, hstop, hmiss, -⟩ | ⟨hover, hall⟩
  · simp only [hhit, reduceCtorEq, false_iff]
    exact fun hall => hstop.1 (hall n hn)
  · simp only [hmiss, reduceCtorEq, false_iff]
    exact fun hall => hstop.1 (hall n hn)
  · exact iff_of_true hover hall

/-- PROBE returns as soon as one slot of the table does not hold another pair, since its walk reaches that slot
(40_dictionary.md R104). -/
theorem probe_ne_overflow_of_not_holdsOther {t : Memory} {p : Code} {b : Byte} {i : Nat} (hi : i < Config.tableSize)
    (h : ¬ holdsOther t p b i) : probe t p b ≠ .overflow := by
  intro hover
  obtain ⟨k, hk, rfl⟩ := walkSlot_surjective p b hi
  exact h (probe_eq_overflow_iff.1 hover k hk)

/-- A table with fewer cells than slots has an empty slot. -/
theorem exists_empty_slot {t : Memory} (hwf : t.wf) (hlen : t.length < Config.tableSize) :
    ∃ i, i < Config.tableSize ∧ tableRead t i = none := by
  have hcard : (t.map Prod.fst).toFinset.card < (Finset.range Config.tableSize).card := by
    rw [Finset.card_range]
    exact (List.toFinset_card_le _).trans_lt (by rwa [List.length_map])
  obtain ⟨i, hi, hfree⟩ := Finset.exists_mem_notMem_of_card_lt_card hcard
  rw [List.mem_toFinset, List.mem_map] at hfree
  exact ⟨i, Finset.mem_range.1 hi, (tableRead_eq_none_iff hwf i).2 fun x hx hxi => hfree ⟨x, hx, hxi⟩⟩

/-- The table never fills up: it holds `next - 256` entries (10_state.md R37 I-b), at most `DICT_CAPACITY`. -/
theorem Inv.probe_ne_overflow {s : State} (h : Inv s) (p : Code) (b : Byte) : probe s.table p b ≠ .overflow := by
  have hlen : s.table.length < Config.tableSize := by
    have hnext := s.next.isLt
    rw [h.tableInv.length_eq, Config.tableSize]
    omega
  obtain ⟨i, hi, hempty⟩ := exists_empty_slot h.tableWf hlen
  exact probe_ne_overflow_of_not_holdsOther hi (not_holdsOther_of_empty hempty)

end Sys2Proof.Machine

namespace Sys2Proof.Proofs

open Sys2Proof.Machine

/-- Settles O22: the walk is a progression whose step is a unit modulo the prime number of slots, so it visits every slot once; a
slot without another pair therefore stops it, and a state that meets the invariant has an empty one. -/
theorem probeWalkVisitsEverySlotOnce : Obligations.ProbeWalkVisitsEverySlotOnce := by
  intro p b
  refine ⟨fun k h => walkSlot_of_hashIndex_ne_zero h k, fun k h => walkSlot_of_hashIndex_eq_zero h k,
    fun i hi => walkSlot_surjective p b hi, fun j k hj hk => walkSlot_injective hj hk, ?empty, ?pair,
    fun s h => h.probe_ne_overflow p b⟩
  case empty =>
    rintro t - ⟨i, hi, hempty⟩
    exact probe_ne_overflow_of_not_holdsOther hi (not_holdsOther_of_empty hempty)
  case pair =>
    rintro t hwf ⟨x, hx, hp, hb⟩
    have hread : tableRead t x.1 = some x.2 := (tableRead_eq_some_iff hwf _ _).2 hx
    exact probe_ne_overflow_of_not_holdsOther (hwf.2 x hx) (not_holdsOther_of_pair hread hp hb)

/-- Settles O20: its 12 bits stay below the number of slots, so the reduction changes nothing. -/
theorem hashFormula : Obligations.HashFormula := by
  intro p b
  have hsmall : hashIndex p b % 5021 = hashIndex p b := Nat.mod_eq_of_lt (hashIndex_lt p b)
  refine ⟨?reduced, hashIndex_eq_xor p b, hashIndex_le p b, hashIndex_eq_zero_iff p b, hashIndex_mod_sixteen p b⟩
  case reduced => rw [← hashIndex_eq_xor, hsmall]

/-- Settles O23: where PROBE stops is where its walk stops, and with what the slot there holds. -/
theorem probeFindsPairOrFirstEmptySlot : Obligations.ProbeFindsPairOrFirstEmptySlot :=
  fun _ _ _ => ⟨fun _ _ _ => probe_eq_hit_iff, fun _ _ => probe_eq_miss_iff, probe_eq_overflow_iff⟩

/-- Settles O21: the two cases of the definition. -/
theorem offsetFormula : Obligations.OffsetFormula :=
  ⟨rfl, fun _ h _ => probeOffset_of_ne_zero h,
    fun _ h => ⟨(probeOffset_pos h).1, Nat.le_of_lt_succ (probeOffset_pos h).2⟩⟩

end Sys2Proof.Proofs
end

section
/-! INSERT after PROBE, and stored pairs over a step (40_dictionary.md R105, R107). -/

namespace Sys2Proof.Machine

/-- INSERT at a slot of the table, in a healthy core (40_dictionary.md R105). -/
theorem exec_insert_of_namesSlot {s : State} {i : Index} (h0 : s.fault = 0#2) (hi : i.namesSlot) (p : Code) (b : Byte)
    (c : Code) : exec (.insert i p b c) s = .next { s with table := tableWrite s.table i.toNat (some ⟨p, b, c⟩) } := by
  rw [exec, execInsert, whenHealthy_of_healthy h0, insertEntry, memWrite, if_pos hi]

/-- Every stored pair is found in its slot, with its entry (40_dictionary.md R107). -/
theorem Inv.probe_stored {s : State} (h : Inv s) {x : Nat × Entry} (hx : x ∈ s.table) :
    ∃ n, probe s.table x.2.pre x.2.byte = .hit x.1 n x.2 := by
  obtain ⟨n, e, hhit⟩ := hitSlot_eq_some (h.found x hx)
  obtain ⟨-, -, hread, -⟩ := probe_hit hhit
  have he : e = x.2 := Option.some.inj (hread.symm.trans ((tableRead_eq_some_iff h.tableWf _ _).2 hx))
  exact ⟨n, he ▸ hhit⟩

/-- A step that stays in the run keeps every hit (40_dictionary.md R107). -/
theorem step_keeps_hit {s t : State} {p : Code} {b : Byte} {idx n : Nat} {e : Entry} (hwf : s.table.wf)
    (hx : step s = .next t) (hrun : t.state ≠ .start) (h : probe s.table p b = .hit idx n e) :
    probe t.table p b = .hit idx n e := by
  rcases step_table hx with hsame | ⟨i, f, hempty, hfill⟩ | ⟨-, hstart, -⟩
  · rwa [hsame]
  · rw [hfill]
    exact probeLoop_tableWrite_of_hit _ hwf hempty h
  · exact absurd hstart hrun

end Sys2Proof.Machine
end

section
/-! From the invariant no step stops and none raises PROBE_OVERFLOW (40_dictionary.md R104, R106; 60_exceptions.md R195). -/

namespace Sys2Proof.Machine

theorem BufferOk.cnt_le {s : State} (h : BufferOk s) : s.cnt.toNat ≤ 20 := by
  rcases h.1 with hc | hc <;> rw [hc] <;> decide

theorem emit_of_bufferOk {s : State} (h : BufferOk s) (c : Code) : emit c s = .next (emitted c s) := if_pos h.cnt_le

theorem BufferOk.finishRun_completes {s : State} (h : BufferOk s) : ∃ t, finishRun s = .next t :=
  ⟨_, finishRun_eq_next_iff.2 ⟨h.cnt_le, rfl⟩⟩

/-- Learning at a slot of the table completes, with or without room (41_encoder_loop.md R134, R137). -/
theorem learn_completes {idx : Nat} (hidx : idx < Config.tableSize) (p : Code) (b : Byte) (s : State) :
    ∃ t, learn idx p b s = .next t := by
  unfold learn
  split
  · exact ⟨_, rfl⟩
  · exact ⟨_, by rw [insertEntry, memWrite, if_pos hidx, andThen_next]⟩

theorem Inv.mainLoop_completes {s : State} (h : Inv s) (b : Byte) : ∃ t, mainLoop b s = .next t := by
  unfold mainLoop
  cases hp : probe s.table (readCur s) b with
  | overflow => exact absurd hp (h.probe_ne_overflow _ _)
  | hit idx n e => exact ⟨_, rfl⟩
  | miss idx n =>
    obtain ⟨-, -, hidx, -⟩ := probe_miss hp
    obtain ⟨u, hu⟩ := learn_completes hidx (readCur s) b (emitted (readCur s) s)
    simp only [emit_of_bufferOk h.bufferOk, andThen_next, hu]
    exact ⟨_, rfl⟩

/-- A command completes in every state that meets the invariant. -/
theorem Inv.exec_completes {s : State} (h : Inv s) {i : Instr} {w : CmdWord} (hi : encode i = .command w) :
    ∃ t, exec i s = .next t := by
  by_cases h0 : s.fault = 0#2
  · cases i with
    | init =>
      rw [exec, execInit, whenHealthy_of_healthy h0]
      cases s.state <;> exact ⟨_, rfl⟩
    | byte b =>
      rw [exec, execByte, whenHealthy_of_healthy h0]
      cases hs : s.state with
      | running => exact h.mainLoop_completes b
      | start | flushing | done => exact ⟨_, rfl⟩
    | endOfInput =>
      rw [exec, execEndOfInput, whenHealthy_of_healthy h0]
      cases hs : s.state with
      | start => exact h.bufferOk.finishRun_completes
      | running =>
        rw [emit_of_bufferOk h.bufferOk, andThen_next]
        exact (h.bufferOk.emitted _).finishRun_completes
      | flushing | done => exact ⟨_, rfl⟩
    | abort r => exact ⟨_, whenHealthy_of_healthy h0 _⟩
    | lit | str | eos | hash | offset | probe | insert | emit | flush => cases hi
  · exact ⟨s, exec_of_faulted i h0⟩

theorem rejectReserved_completes (w : CmdWord) (s : State) : ∃ t, rejectReserved w s = .next t := by
  unfold rejectReserved whenHealthy
  split <;> exact ⟨_, rfl⟩

theorem Inv.step_completes {s : State} (h : Inv s) : ∃ t, step s = .next t := by
  rcases hin : s.input with _ | ⟨w | _, rest⟩
  · exact ⟨s, by simp only [step, takeAction, nextAction, hin]⟩
  · rw [step_of_command hin]
    cases hdec : decode w with
    | command i =>
      rw [acceptCommand_of_decode hdec]
      exact (inv_set_input h rest).exec_completes (encode_of_decode hdec)
    | reservedInit d => simpa only [acceptCommand, hdec] using rejectReserved_completes w _
    | reservedEnd d => simpa only [acceptCommand, hdec] using rejectReserved_completes w _
  · exact ⟨_, by rw [step, takeAction, nextAction_of_input hin]⟩

/-- No command raises PROBE_OVERFLOW in a state that meets the invariant (60_exceptions.md R195). -/
theorem Inv.exec_fault {s t : State} (h : Inv s) {i : Instr} {w : CmdWord} (hi : encode i = .command w)
    (hx : exec i s = .next t) (hs : s.fault ≠ 3#2) : t.fault ≠ 3#2 := by
  by_cases h0 : s.fault = 0#2
  · cases i with
    | init =>
      rcases execInit_cases h0 hx with ⟨-, rfl⟩ | ⟨-, rfl⟩
      · simp
      · exact hs
    | byte b =>
      rcases execByte_cases h0 hx with ⟨-, rfl⟩ | ⟨-, rfl⟩ | ⟨-, idx, n, e, -, rfl⟩ | ⟨-, -, idx, n, -, rfl⟩ |
        ⟨-, hover, -⟩
      · simp
      · exact hs
      · exact hs
      · exact hs
      · exact absurd hover (h.probe_ne_overflow _ _)
    | endOfInput =>
      rcases execEndOfInput_cases h0 hx with ⟨-, rfl⟩ | ⟨-, ht, -⟩
      · simp
      · rw [ht]
        exact hs
    | abort r =>
      rw [execAbort_cases h0 hx]
      simp
    | lit | str | eos | hash | offset | probe | insert | emit | flush => cases hi
  · rw [exec_of_faulted i h0] at hx
    cases hx
    exact hs

theorem Inv.step_fault {s t : State} (h : Inv s) (hx : step s = .next t) (hs : s.fault ≠ 3#2) : t.fault ≠ 3#2 := by
  rcases step_cases hx with ⟨-, rfl⟩ | ⟨rest, -, rfl⟩ | ⟨w, rest, i, -, hdec, hexec⟩ | ⟨w, rest, -, -, hraise⟩
  · exact hs
  · simp
  · exact (inv_set_input h rest).exec_fault (encode_of_decode hdec) hexec hs
  · rcases whenHealthy_eq_next_iff.1 hraise with ⟨h0, ht⟩ | ⟨-, rfl⟩
    · cases ht
      rw [raiseProtocol_of_healthy h0]
      simp
    · exact hs

end Sys2Proof.Machine
end

section
/-! The registers an internal operation or an output code writes (40_dictionary.md R101 to R105; 42_bit_packer.md R171, R173). -/

namespace Sys2Proof.Machine

theorem execPacked_frame {i : Instr} {c : Code} {s t : State} (h0 : s.fault = 0#2) (hi : encode i = .code c ∨ i = .emit c)
    (hx : exec i s = .next t) : t = { s with acc := t.acc, cnt := t.cnt, out := t.out } := by
  rw [(execPacked_cases h0 hi hx).2]
  exact emitted_eta c s

/-- PROBE writes the scratch or the fault registers, not both (40_dictionary.md R103, R106). -/
theorem execProbe_frame {p : Code} {b : Byte} {s t : State} (h0 : s.fault = 0#2) (hx : exec (.probe p b) s = .next t) :
    t = { s with idx := t.idx, off := t.off, n := t.n, fault := t.fault, faultInfo := t.faultInfo } ∧
      (t.fault ≠ s.fault → t.idx = s.idx ∧ t.off = s.off ∧ t.n = s.n) := by
  rcases execProbe_cases h0 hx with ⟨-, rfl⟩ | ⟨idx, n, -, rfl⟩
  · exact ⟨rfl, fun _ => ⟨rfl, rfl, rfl⟩⟩
  · exact ⟨rfl, fun hne => absurd rfl hne⟩

/-- PROBE in a healthy core leaves its result in the scratch (40_dictionary.md R103; log entry 10). -/
theorem exec_probe_of_found {s : State} {p : Code} {b : Byte} {idx n : Nat} (h0 : s.fault = 0#2)
    (h : probe s.table p b = .miss idx n ∨ ∃ e, probe s.table p b = .hit idx n e) :
    exec (.probe p b) s = .next (setScratch p b idx n s) := by
  rw [exec, execProbe, whenHealthy_of_healthy h0]
  rcases h with hmiss | ⟨e, hhit⟩
  · simp only [hmiss]
  · simp only [hhit]

/-- PROBE in a healthy core raises PROBE_OVERFLOW on an exhausted walk (40_dictionary.md R106). -/
theorem exec_probe_of_overflow {s : State} {p : Code} {b : Byte} (h0 : s.fault = 0#2) (h : probe s.table p b = .overflow) :
    exec (.probe p b) s = .next { s with fault := 3#2, faultInfo := BitVec.ofNat 16 (hashIndex p b) } := by
  rw [exec, execProbe, whenHealthy_of_healthy h0]
  simp only [h, raiseProbeOverflow, raise_of_healthy h0, causeCode]

theorem exec_offset_of_namesSlot {s : State} {i : Index} (h0 : s.fault = 0#2) (hi : i.namesSlot) :
    exec (.offset i) s = .next { s with off := some (BitVec.ofNat 13 (probeOffset i.toNat)) } := by
  rw [exec, execOffset, whenHealthy_of_healthy h0, if_pos hi]

theorem exec_hash_of_healthy {s : State} (h0 : s.fault = 0#2) (p : Code) (b : Byte) :
    exec (.hash p b) s = .next { s with idx := some (BitVec.ofNat 13 (hashIndex p b)) } :=
  whenHealthy_of_healthy h0 _

end Sys2Proof.Machine

namespace Sys2Proof.Proofs

open Sys2Proof.Machine

/-- Settles O25: an entry is read where it is stored, a hit was read from the table, and a step of the run at most fills a slot
that was empty. -/
theorem storedPairsAreFound : Obligations.StoredPairsAreFound := by
  intro s h
  refine ⟨fun x hx => h.probe_stored hx, ?hit, ?step⟩
  case hit =>
    intro p b idx n e hhit
    obtain ⟨-, -, hread, hp, hb⟩ := probe_hit hhit
    exact ⟨(tableRead_eq_some_iff h.tableWf _ _).1 hread, hp, hb⟩
  case step =>
    intro t hx hrun x hmem
    obtain ⟨n, hhit⟩ := h.probe_stored hmem
    exact ⟨n, step_keeps_hit h.tableWf hx hrun hhit⟩

/-- Settles O39: a table with an empty slot ends every probe, and 0 or 4 pending bits leave room for EMIT. -/
theorem stepNeverStopsNorOverflows : Obligations.StepNeverStopsNorOverflows := by
  intro s h
  obtain ⟨t, hx⟩ := h.step_completes
  exact ⟨t, hx, h.step_fault hx⟩

/-- Settles O24: the write fills the empty slot at which the walk of the pair ended. -/
theorem insertMakesPairFound : Obligations.InsertMakesPairFound := by
  intro s p b c i n h0 hwf hmiss
  obtain ⟨-, -, hi, hempty⟩ := probe_miss hmiss
  exact ⟨_, exec_insert_of_namesSlot h0 hi p b c, tableRead_tableWrite_same _ _ _,
    fun j hj => tableRead_tableWrite_other _ hwf hj, ⟨n, probeLoop_tableWrite_of_miss hwf hempty c hmiss⟩,
    fun q d j m e hhit => probeLoop_tableWrite_of_hit _ hwf hempty hhit⟩

/-- Settles O32: a faulted core changes nothing, and in a healthy one each row has its equation. -/
theorem internalOperationFrames : Obligations.InternalOperationFrames := by
  intro i s t hx
  by_cases h0 : s.fault = 0#2
  · cases i with
    | hash p b => rw [execHash_cases h0 hx]
    | offset j => rw [(execOffset_cases h0 hx).2]
    | probe p b => exact execProbe_frame h0 hx
    | insert j p b c => rw [(execInsert_cases h0 hx).2]
    | emit c => exact execPacked_frame h0 (Or.inr rfl) hx
    | lit b => exact execPacked_frame h0 (Or.inl rfl) hx
    | str c => exact execPacked_frame h0 (Or.inl rfl) hx
    | eos => exact execPacked_frame h0 (Or.inl rfl) hx
    | flush =>
      rw [execFlush_cases h0 hx]
      exact flush_eta s
    | init | byte | endOfInput | abort => trivial
  · rw [exec_of_faulted i h0] at hx
    cases hx
    cases i with
    | probe p b => exact ⟨rfl, fun hne => absurd rfl hne⟩
    | init | byte | endOfInput | abort => trivial
    | hash | offset | insert | emit | lit | str | eos | flush => rfl

/-- Settles O26: the equation of each row in a healthy core. -/
theorem internalTableOperationsComplete : Obligations.InternalTableOperationsComplete := fun _ h0 =>
  ⟨exec_hash_of_healthy h0, fun _ hi => exec_offset_of_namesSlot h0 hi, fun _ _ _ _ => exec_probe_of_found h0,
    fun _ _ => exec_probe_of_overflow h0, fun _ p b c hi => exec_insert_of_namesSlot h0 hi p b c⟩

end Sys2Proof.Proofs
end

section
/-! The four commands in a healthy core, one equation per row of the transition table (41_encoder_loop.md R131 to R136). -/

namespace Sys2Proof.Machine

/-- INIT where it is legal begins a fresh run (41_encoder_loop.md R132). -/
theorem exec_init_of_legal {s : State} (h0 : s.fault = 0#2) (hs : s.state = .start ∨ s.state = .done) :
    exec .init s = .next (freshRun s) := by
  rw [exec, execInit, whenHealthy_of_healthy h0]
  rcases hs with hs | hs <;> rw [hs]

theorem exec_byte_of_start {s : State} (h0 : s.fault = 0#2) (hs : s.state = .start) (b : Byte) :
    exec (.byte b) s = .next (firstByte b s) := by
  rw [exec, execByte, whenHealthy_of_healthy h0, hs]

theorem exec_byte_of_running {s : State} (h0 : s.fault = 0#2) (hs : s.state = .running) (b : Byte) :
    exec (.byte b) s = mainLoop b s := by
  rw [exec, execByte, whenHealthy_of_healthy h0, hs]

theorem exec_byte_of_hit {s : State} {b : Byte} {idx n : Nat} {e : Entry} (h0 : s.fault = 0#2) (hs : s.state = .running)
    (hp : probe s.table (readCur s) b = .hit idx n e) :
    exec (.byte b) s = .next { s with cur := some e.code, idx := none, off := none, n := none } := by
  rw [exec_byte_of_running h0 hs, mainLoop, hp]
  rfl

theorem exec_byte_of_overflow {s : State} {b : Byte} (h0 : s.fault = 0#2) (hs : s.state = .running)
    (hp : probe s.table (readCur s) b = .overflow) :
    exec (.byte b) s = .next { s with fault := 3#2, faultInfo := BitVec.ofNat 16 (hashIndex (readCur s) b) } := by
  rw [exec_byte_of_running h0 hs, mainLoop, hp]
  exact congrArg _ (raise_of_healthy h0 _ _)

/-- A BYTE in RUNNING that misses completes while EMIT has room for the code (41_encoder_loop.md R134, R137). -/
theorem exec_byte_of_miss {s : State} {b : Byte} {idx n : Nat} (h0 : s.fault = 0#2) (hs : s.state = .running)
    (hp : probe s.table (readCur s) b = .miss idx n) (hcnt : s.cnt.toNat ≤ 20) :
    exec (.byte b) s = .next { s with
      cur := some (zext12 b), idx := none, off := none, n := none,
      acc := (emitted (readCur s) s).acc, cnt := (emitted (readCur s) s).cnt, out := (emitted (readCur s) s).out,
      table := if dictFull s then s.table else tableWrite s.table idx (some ⟨readCur s, b, s.next⟩),
      next := if dictFull s then s.next else s.next + 1#12 } := by
  obtain ⟨-, -, hidx, -⟩ := probe_miss hp
  obtain ⟨u, hu⟩ := learn_completes hidx (readCur s) b (emitted (readCur s) s)
  have hx : ∃ t, exec (.byte b) s = .next t := by
    rw [exec_byte_of_running h0 hs, mainLoop, hp]
    simp only [emit, if_pos hcnt, andThen_next, hu]
    exact ⟨_, rfl⟩
  obtain ⟨t, hx⟩ := hx
  rw [hx]
  rcases execByte_cases h0 hx with ⟨hprotocol, -⟩ | ⟨hstart, -⟩ | ⟨-, j, k, e, hhit, -⟩ | ⟨-, -, j, k, hmiss, rfl⟩ | ⟨-, hover, -⟩
  · simp [protocolIn, hs] at hprotocol
  · simp [hs] at hstart
  · simp [hp] at hhit
  · cases hp.symm.trans hmiss
    rfl
  · simp [hp] at hover

/-- The word of ABORT as `fault_info` records it (60_exceptions.md R191). -/
theorem zext16_abortWord (r : Byte) : zext16 (abortWord r) = 0x0300#16 ||| r.setWidth 16 := by
  have hword : abortWord r = 0x300#10 ||| r.setWidth 10 := (match_or_data 3#2 r).symm
  rw [hword, zext16, BitVec.setWidth_or, BitVec.setWidth_setWidth (by decide)]
  rfl

theorem exec_abort_of_healthy {s : State} (h0 : s.fault = 0#2) (r : Byte) :
    exec (.abort r) s = .next { s with fault := 1#2, faultInfo := 0x0300#16 ||| r.setWidth 16 } := by
  rw [← zext16_abortWord, exec, execAbort, whenHealthy_of_healthy h0, raise_of_healthy h0]
  rfl

/-- FLUSH neither reads nor writes `state` (42_bit_packer.md R173). -/
theorem flush_set_state (s : State) (p q : Phase) :
    { flush { s with state := p } with state := q } = { flush s with state := q } := by
  unfold flush
  split <;> rfl

theorem finishRun_of_le {s : State} (hcnt : s.cnt.toNat ≤ 20) :
    finishRun s = .next { flush (emitted eosCode s) with state := .done } :=
  finishRun_eq_next_iff.2 ⟨hcnt, (flush_set_state _ _ _).symm⟩

/-- END in START packs the end-of-stream code alone, and flushes (41_encoder_loop.md R135). -/
theorem exec_endOfInput_of_start {s : State} (h0 : s.fault = 0#2) (hs : s.state = .start) (hcnt : s.cnt.toNat ≤ 20) :
    exec .endOfInput s = .next { flush (emitted eosCode s) with state := .done } := by
  rw [exec, execEndOfInput, whenHealthy_of_healthy h0, hs]
  exact finishRun_of_le hcnt

/-- END in RUNNING packs the pending code and the end-of-stream code, and flushes (41_encoder_loop.md R135). -/
theorem exec_endOfInput_of_running {s : State} {c : Code} (h0 : s.fault = 0#2) (hs : s.state = .running)
    (hcur : s.cur = some c) (hcnt : s.cnt.toNat ≤ 20) (hcnt' : (emitted c s).cnt.toNat ≤ 20) :
    exec .endOfInput s = .next { flush (emitted eosCode (emitted c s)) with state := .done } := by
  rw [exec, execEndOfInput, whenHealthy_of_healthy h0, hs]
  simp only [readCur_of_cur hcur, emit_eq_next_iff.2 ⟨hcnt, rfl⟩, andThen_next]
  exact finishRun_of_le hcnt'

end Sys2Proof.Machine
end

section
/-! The stream of codes as bits: what a stretch of a run packs, and how FLUSH pads it (42_bit_packer.md R171 to R173;
20_memory.md R50, R61). -/

namespace Sys2Proof.Machine

/-- Between `s` and `t` the codes `cs` were packed: the bytes output and the bits pending at `t` are the bits pending at `s`
followed by those of `cs`. -/
def Packs (s : State) (cs : List Code) (t : State) : Prop :=
  ∃ ys, t.out = s.out ++ byteEvents ys ∧ ys.flatMap byteBits ++ pendingBits t = pendingBits s ++ cs.flatMap codeBits

theorem byteEvents_append (ys zs : List Byte) : byteEvents (ys ++ zs) = byteEvents ys ++ byteEvents zs :=
  List.map_append

theorem length_codeBits (c : Code) : (codeBits c).length = 12 := rfl

theorem length_byteBits (b : Byte) : (byteBits b).length = 8 := rfl

theorem length_pendingBits (s : State) : (pendingBits s).length = s.cnt.toNat := by
  rw [pendingBits, List.length_map, List.length_range]

theorem length_flatMap_codeBits (cs : List Code) : (cs.flatMap codeBits).length = 12 * cs.length := by
  induction cs with
  | nil => rfl
  | cons c cs ih =>
    rw [List.flatMap_cons, List.length_append, ih, length_codeBits, List.length_cons]
    omega

theorem length_flatMap_byteBits (ys : List Byte) : (ys.flatMap byteBits).length = 8 * ys.length := by
  induction ys with
  | nil => rfl
  | cons y ys ih =>
    rw [List.flatMap_cons, List.length_append, ih, length_byteBits, List.length_cons]
    omega

theorem pendingBits_of_cnt_zero {s : State} (h : s.cnt = 0#5) : pendingBits s = [] :=
  List.length_eq_zero_iff.1 (by rw [length_pendingBits, h]; rfl)

/-- Nothing is packed while the bit buffer and the trace stay as they are. -/
theorem Packs.of_eq {s t : State} (hout : t.out = s.out) (hacc : t.acc = s.acc) (hcnt : t.cnt = s.cnt) : Packs s [] t :=
  ⟨[], by simp [hout, byteEvents], by simp [pendingBits, hacc, hcnt]⟩

theorem Packs.trans {s t u : State} {cs ds : List Code} (h : Packs s cs t) (h' : Packs t ds u) : Packs s (cs ++ ds) u := by
  obtain ⟨ys, hout, hbits⟩ := h
  obtain ⟨zs, hout', hbits'⟩ := h'
  refine ⟨ys ++ zs, ?out, ?bits⟩
  case out => rw [hout', hout, byteEvents_append, List.append_assoc]
  case bits => rw [List.flatMap_append, List.append_assoc, hbits', ← List.append_assoc, hbits, List.append_assoc,
    List.flatMap_append]

/-- EMIT packs its code (42_bit_packer.md R171). -/
theorem packs_emitted {s : State} (h : BufferOk s) (c : Code) : Packs s [c] (emitted c s) := by
  have hcnt : s.cnt.toNat ≤ 19 := by rcases h.1 with hc | hc <;> rw [hc] <;> decide
  simpa [Packs] using emitted_bits c hcnt h.2

/-- The byte FLUSH writes: the pending bits, padded with zeros (42_bit_packer.md R173). -/
theorem byteBits_topByte {s : State} (hcnt : s.cnt.toNat ≤ 8) (hacc : s.acc <<< s.cnt.toNat = 0#32) :
    byteBits (topByte s.acc) = pendingBits s ++ List.replicate (8 - s.cnt.toNat) false := by
  have hbit : ∀ j, j < 8 → (topByte s.acc).getLsbD (7 - j) = s.acc.getLsbD (31 - j) := fun j hj => by
    rw [topByte, BitVec.getLsbD_extractLsb', show 24 + (7 - j) = 31 - j by omega]
    simp [show 7 - j < 8 by omega]
  have hsplit : List.range 8 = List.range s.cnt.toNat ++ (List.range (8 - s.cnt.toNat)).map (s.cnt.toNat + ·) := by
    rw [← List.range_add, Nat.add_sub_cancel' hcnt]
  rw [byteBits, hsplit, List.map_append, List.map_map]
  congr 1
  · exact List.map_congr_left fun j hj => hbit j (Nat.lt_of_lt_of_le (List.mem_range.1 hj) hcnt)
  · refine List.eq_replicate_iff.2 ⟨by simp, fun x hx => ?_⟩
    obtain ⟨j, hj, rfl⟩ := List.mem_map.1 hx
    have hj : j < 8 - s.cnt.toNat := List.mem_range.1 hj
    rw [Function.comp_apply, hbit _ (by omega)]
    exact getLsbD_below_pending hacc (by omega)

/-- FLUSH writes the pending bits padded to whole bytes, then the persist marker (42_bit_packer.md R173). -/
theorem flush_bits {s : State} (hcnt : s.cnt.toNat ≤ 8) (hacc : s.acc <<< s.cnt.toNat = 0#32) :
    ∃ zs, (flush s).out = s.out ++ byteEvents zs ++ [.outPersist] ∧ zs.length = (s.cnt.toNat + 7) / 8 ∧
      zs.flatMap byteBits = pendingBits s ++ List.replicate (8 * zs.length - s.cnt.toNat) false := by
  by_cases hpos : 0 < s.cnt.toNat
  · refine ⟨[topByte s.acc], by simp [flush, hpos, byteEvents], ?len, ?bits⟩
    case len => rw [List.length_singleton]; omega
    case bits => rw [List.flatMap_singleton, byteBits_topByte hcnt hacc]; rfl
  · have hzero : s.cnt.toNat = 0 := by omega
    have hempty : pendingBits s = [] := List.length_eq_zero_iff.1 (by rw [length_pendingBits, hzero])
    exact ⟨[], by simp [flush, hzero, byteEvents], by simp [hzero], by simp [hempty]⟩

/-- A stream from an empty bit buffer, flushed: its codes' bits, padded with zeros to a byte boundary (20_memory.md R61). -/
theorem Packs.flush_padded {s t : State} {cs : List Code} (h : Packs s cs t) (hs : s.cnt = 0#5) (ht : BufferOk t) :
    ∃ ys, (flush t).out = s.out ++ byteEvents ys ++ [.outPersist] ∧ ys.length = (12 * cs.length + 7) / 8 ∧
      ys.flatMap byteBits = cs.flatMap codeBits ++ List.replicate (8 * ys.length - 12 * cs.length) false := by
  obtain ⟨ys, hout, hbits⟩ := h
  have hcnt : t.cnt.toNat ≤ 8 := by rcases ht.1 with hc | hc <;> rw [hc] <;> decide
  obtain ⟨zs, hout', hlen', hbits'⟩ := flush_bits hcnt ht.2
  rw [pendingBits_of_cnt_zero hs, List.nil_append] at hbits
  have hlen : 8 * ys.length + t.cnt.toNat = 12 * cs.length := by
    rw [← length_flatMap_codeBits, ← hbits, List.length_append, length_flatMap_byteBits, length_pendingBits]
  refine ⟨ys ++ zs, ?out, ?length, ?bits⟩
  case out => rw [hout', hout, byteEvents_append, ← List.append_assoc s.out]
  case length => rw [List.length_append, hlen']; omega
  case bits =>
    have hpad : 8 * (ys ++ zs).length - 12 * cs.length = 8 * zs.length - t.cnt.toNat := by
      rw [List.length_append]; omega
    rw [hpad, List.flatMap_append, hbits', ← List.append_assoc, hbits]

/-- Bytes are determined by their bits. -/
theorem byteBits_injective : Function.Injective byteBits := fun b d h => by
  refine BitVec.eq_of_getLsbD_eq fun j hj => ?_
  have hbit := (List.map_inj_left.1 h) (7 - j) (List.mem_range.2 (by omega))
  rwa [show 7 - (7 - j) = j by omega] at hbit

theorem flatMap_byteBits_injective : Function.Injective (List.flatMap byteBits) := fun ys zs h => by
  induction ys generalizing zs with
  | nil =>
    have hlen := congrArg List.length h
    rw [length_flatMap_byteBits, length_flatMap_byteBits, List.length_nil] at hlen
    exact (List.length_eq_zero_iff.1 (by omega)).symm
  | cons y ys ih =>
    cases zs with
    | nil => cases h
    | cons z zs =>
      obtain ⟨hhead, htail⟩ := List.append_inj h rfl
      rw [byteBits_injective hhead, ih zs htail]

end Sys2Proof.Machine
end

section
/-! The string of a code (41_encoder_loop.md R138): of a literal, of an entry, and what a growing table keeps of them. -/

namespace Sys2Proof.Machine

theorem codeStringFuel_of_literal (t : Memory) (fuel : Nat) {c : Code} (h : c.toNat < 256) :
    codeStringFuel t (fuel + 1) c = [c.extractLsb' 0 8] :=
  if_pos h

theorem codeString_of_literal (t : Memory) {c : Code} (h : c.toNat < 256) : codeString t c = [c.extractLsb' 0 8] :=
  codeStringFuel_of_literal t _ h

theorem codeString_zext12 (t : Memory) (b : Byte) : codeString t (zext12 b) = [b] := by
  rw [codeString_of_literal t (zext12_lt b), zext12, BitVec.extractLsb'_setWidth_of_le (by decide), BitVec.extractLsb'_eq_self]

/-- A code is held by one cell (10_state.md R30). -/
theorem TableInv.find?_code {t : Memory} {next : Code} (h : TableInv t next) {x : Nat × Entry} (hx : x ∈ t) :
    t.find? (fun y => y.2.code == x.2.code) = some x := by
  have hsome : (t.find? fun y => y.2.code == x.2.code).isSome := List.find?_isSome.2 ⟨x, hx, beq_self_eq_true _⟩
  obtain ⟨y, hy⟩ := Option.isSome_iff_exists.1 hsome
  have hcode : y.2.code = x.2.code := by simpa using List.find?_some hy
  rw [hy, List.inj_on_of_nodup_map h.codesHeld_nodup (List.mem_of_find?_eq_some hy) hx (congrArg BitVec.toNat hcode)]

/-- One step of the string of an entry, to the older code it extends. -/
theorem TableInv.codeStringFuel_entry {t : Memory} {next : Code} (h : TableInv t next) (fuel : Nat) {x : Nat × Entry}
    (hx : x ∈ t) : codeStringFuel t (fuel + 1) x.2.code = codeStringFuel t fuel x.2.pre ++ [x.2.byte] := by
  have hentry : ¬ x.2.code.toNat < Config.firstCode := Nat.not_lt.2 (h.code_range hx).1
  rw [codeStringFuel, if_neg hentry, h.find?_code hx]

/-- A code is a literal, the code of an entry, or not yet assigned. -/
theorem TableInv.code_cases {t : Memory} {next : Code} (h : TableInv t next) {c : Code} (hc : c.toNat < next.toNat) :
    c.toNat < 256 ∨ ∃ x ∈ t, x.2.code = c := by
  by_cases hlit : c.toNat < 256
  · exact Or.inl hlit
  · obtain ⟨x, hx, hxc⟩ := List.mem_map.1 ((h.mem_codesHeld_iff c.toNat).2 ⟨Nat.not_lt.1 hlit, hc⟩)
    exact Or.inr ⟨x, hx, BitVec.eq_of_toNat_eq hxc⟩

/-- An entry extends an older code, so fuel beyond the code's value changes nothing. -/
theorem TableInv.codeStringFuel_succ {t : Memory} {next : Code} (h : TableInv t next) {fuel : Nat} {c : Code}
    (hc : c.toNat < next.toNat) (hfuel : c.toNat < fuel) : codeStringFuel t (fuel + 1) c = codeStringFuel t fuel c := by
  induction fuel generalizing c with
  | zero => omega
  | succ fuel ih =>
    rcases h.code_cases hc with hlit | ⟨x, hx, rfl⟩
    · rw [codeStringFuel_of_literal t _ hlit, codeStringFuel_of_literal t _ hlit]
    · have holder := h.olderPrefix x hx
      rw [h.codeStringFuel_entry _ hx, h.codeStringFuel_entry _ hx, ih (by omega) (by omega)]

/-- The string of an entry is that of the code it extends, followed by its byte (41_encoder_loop.md R138). -/
theorem TableInv.codeString_entry {t : Memory} {next : Code} (h : TableInv t next) {x : Nat × Entry} (hx : x ∈ t) :
    codeString t x.2.code = codeString t x.2.pre ++ [x.2.byte] := by
  have holder := h.olderPrefix x hx
  have hlt := (h.code_range hx).2
  have hmax := next.isLt
  rw [codeString, h.codeStringFuel_entry _ hx, codeString,
    h.codeStringFuel_succ (holder.trans hlt) (by rw [Config.maxValue]; omega)]

theorem TableInv.codeString_ne_nil {t : Memory} {next : Code} (h : TableInv t next) {c : Code} (hc : c.toNat < next.toNat) :
    codeString t c ≠ [] := by
  rcases h.code_cases hc with hlit | ⟨x, hx, rfl⟩
  · simp [codeString_of_literal t hlit]
  · simp [h.codeString_entry hx]

/-- A table that only grew gives every code it had the same string (41_encoder_loop.md R138; 10_state.md R30). -/
theorem TableInv.codeString_of_subset {t t' : Memory} {next next' : Code} (h : TableInv t next) (h' : TableInv t' next')
    (hsub : t ⊆ t') {c : Code} (hc : c.toNat < next.toNat) : codeString t' c = codeString t c := by
  induction hk : c.toNat using Nat.strong_induction_on generalizing c with
  | _ k ih =>
    rcases h.code_cases hc with hlit | ⟨x, hx, rfl⟩
    · rw [codeString_of_literal t hlit, codeString_of_literal t' hlit]
    · have holder := h.olderPrefix x hx
      rw [h.codeString_entry hx, h'.codeString_entry (hsub hx), ih _ (hk ▸ holder) (holder.trans hc) rfl]

end Sys2Proof.Machine
end

section
/-! One BYTE in RUNNING, from a state that meets the invariant: what it packs, what it learns, what `cur` then stands for, and what
the map-based encoder does beside it (41_encoder_loop.md R134, R137, R138, R144). -/

namespace Sys2Proof.Machine

/-- What BYTE b does in RUNNING with the current code `c` (41_encoder_loop.md R134, R137), in the fields the strings and the codes
of a run depend on. The list holds the codes packed. -/
inductive ByteStep (b : Byte) (c : Code) (s t : State) : List Code → Prop
  | hit {idx n : Nat} {e : Entry} (hp : probe s.table c b = .hit idx n e) (hcur : t.cur = some e.code)
      (htable : t.table = s.table) (hnext : t.next = s.next) (hout : t.out = s.out) (hpack : Packs s [] t) :
      ByteStep b c s t []
  | learn {idx n : Nat} (hp : probe s.table c b = .miss idx n) (hcur : t.cur = some (zext12 b))
      (hroom : s.next.toNat ≤ 4094) (htable : t.table = tableWrite s.table idx (some ⟨c, b, s.next⟩))
      (hnext : t.next.toNat = s.next.toNat + 1) (hpack : Packs s [c] t) : ByteStep b c s t [c]
  | full {idx n : Nat} (hp : probe s.table c b = .miss idx n) (hcur : t.cur = some (zext12 b))
      (hfull : ¬ s.next.toNat ≤ 4094) (htable : t.table = s.table) (hnext : t.next = s.next) (hpack : Packs s [c] t) :
      ByteStep b c s t [c]

/-- BYTE in RUNNING is a `ByteStep`, stays in RUNNING, raises nothing and leaves the host's list alone. -/
theorem Inv.byteStep {s t : State} {b : Byte} {c : Code} (h : Inv s) (h0 : s.fault = 0#2) (hrun : s.state = .running)
    (hcur : s.cur = some c) (hx : exec (.byte b) s = .next t) :
    (t.fault = 0#2 ∧ t.state = .running ∧ t.input = s.input) ∧ ∃ cs, ByteStep b c s t cs := by
  have hread := readCur_of_cur hcur
  rcases execByte_cases h0 hx with ⟨hprotocol, -⟩ | ⟨hstart, -⟩ | ⟨-, idx, n, e, hp, rfl⟩ | ⟨-, -, idx, n, hp, rfl⟩ | ⟨-, hover, -⟩
  · simp [protocolIn, hrun] at hprotocol
  · simp [hrun] at hstart
  · exact ⟨⟨h0, hrun, rfl⟩, [], .hit (hread ▸ hp) rfl rfl rfl rfl (Packs.of_eq rfl rfl rfl)⟩
  · rw [hread] at hp ⊢
    refine ⟨⟨h0, hrun, rfl⟩, [c], ?_⟩
    have hpack := packs_emitted h.bufferOk c
    cases hfull : dictFull s with
    | true => exact .full hp rfl (fun hle => by simp [(dictFull_eq_false_iff s).2 hle] at hfull) rfl rfl hpack
    | false =>
      have hroom := (dictFull_eq_false_iff s).1 hfull
      exact .learn hp rfl hroom rfl (by simp only [Bool.false_eq_true, if_false]; bv_omega) hpack
  · exact absurd hover (h.probe_ne_overflow _ _)

section
variable {b : Byte} {c : Code} {s t : State} {cs : List Code}

/-- What the host does next plays no part. -/
theorem ByteStep.of_set_input {acts : List HostAction} (h : ByteStep b c { s with input := acts } t cs) :
    ByteStep b c s t cs := by
  cases h with
  | hit hp hcur htable hnext hout hpack => exact .hit hp hcur htable hnext hout hpack
  | learn hp hcur hroom htable hnext hpack => exact .learn hp hcur hroom htable hnext hpack
  | full hp hcur hfull htable hnext hpack => exact .full hp hcur hfull htable hnext hpack

theorem ByteStep.packs (h : ByteStep b c s t cs) : Packs s cs t := by
  cases h with
  | hit _ _ _ _ _ hpack => exact hpack
  | learn _ _ _ _ _ hpack => exact hpack
  | full _ _ _ _ _ hpack => exact hpack

theorem mem_tableWrite_of_miss (hwf : s.table.wf) {idx n : Nat} (hp : probe s.table c b = .miss idx n) (e : Entry)
    {x : Nat × Entry} : x ∈ tableWrite s.table idx (some e) ↔ x = (idx, e) ∨ x ∈ s.table := by
  obtain ⟨-, -, -, hempty⟩ := probe_miss hp
  rw [(tableWrite_perm e hwf hempty).mem_iff, List.mem_cons]

/-- Entries are only added (10_state.md R30). -/
theorem ByteStep.table_subset (h : ByteStep b c s t cs) (hwf : s.table.wf) : s.table ⊆ t.table := by
  cases h with
  | hit _ _ htable => exact htable ▸ List.Subset.refl _
  | learn hp _ _ htable => exact htable ▸ fun x hx => (mem_tableWrite_of_miss hwf hp _).2 (Or.inr hx)
  | full _ _ _ htable => exact htable ▸ List.Subset.refl _

/-- `next` counts the codes packed, until the code space is exhausted (41_encoder_loop.md R137, R139). -/
theorem ByteStep.next_eq (h : ByteStep b c s t cs) : t.next.toNat = min (s.next.toNat + cs.length) 4095 := by
  have hlt := s.next.isLt
  cases h with
  | hit _ _ _ hnext => rw [hnext, List.length_nil]; omega
  | learn _ _ hroom _ hnext => rw [hnext, List.length_singleton]; omega
  | full _ _ hfull _ hnext => rw [hnext, List.length_singleton]; omega

theorem ByteStep.next_le (h : ByteStep b c s t cs) : s.next.toNat ≤ t.next.toNat := by
  have hlt := s.next.isLt
  rw [h.next_eq]
  omega

theorem ByteStep.length_le (h : ByteStep b c s t cs) : cs.length ≤ 1 := by
  cases h <;> simp

/-- The strings of the codes packed, followed by that of the new current code, are the string of the old one and the byte
(41_encoder_loop.md R138). -/
theorem ByteStep.spells (h : ByteStep b c s t cs) (hs : Inv s) (ht : Inv t) (hc : c.toNat < s.next.toNat) {d : Code}
    (hd : t.cur = some d) : cs.flatMap (codeString t.table) ++ codeString t.table d = codeString s.table c ++ [b] := by
  have hkeep := hs.tableInv.codeString_of_subset ht.tableInv (h.table_subset hs.tableWf) hc
  cases h with
  | hit hp hcur htable =>
    obtain ⟨-, -, hread, rfl, rfl⟩ := probe_hit hp
    cases hcur.symm.trans hd
    rw [htable]
    exact hs.tableInv.codeString_entry ((tableRead_eq_some_iff hs.tableWf _ _).1 hread)
  | learn _ hcur | full _ hcur =>
    cases hcur.symm.trans hd
    rw [List.flatMap_singleton, hkeep, codeString_zext12]

/-- The entry learned stands for the string of the current code followed by the byte (41_encoder_loop.md R138). -/
theorem ByteStep.codeString_next (h : ByteStep b c s t [c]) (hs : Inv s) (ht : Inv t) (hc : c.toNat < s.next.toNat)
    (hroom : s.next.toNat ≤ 4094) : codeString t.table s.next = codeString s.table c ++ [b] := by
  have hkeep := hs.tableInv.codeString_of_subset ht.tableInv (h.table_subset hs.tableWf) hc
  cases h with
  | learn hp _ _ htable =>
    have hmem : (_, (⟨c, b, s.next⟩ : Entry)) ∈ t.table := htable ▸ (mem_tableWrite_of_miss hs.tableWf hp _).2 (Or.inl rfl)
    rw [ht.tableInv.codeString_entry hmem, hkeep]
  | full _ _ hfull => exact absurd hroom hfull

/-- The codes packed were assigned before the step. -/
theorem ByteStep.codes_lt (h : ByteStep b c s t cs) (hc : c.toNat < s.next.toNat) : ∀ d ∈ cs, d.toNat < s.next.toNat := by
  cases h with
  | hit => simp
  | learn | full => simpa using hc

/-- The finite map holds exactly the pairs of the table, with their codes (41_encoder_loop.md R144). -/
def Models (dict : List ((Code × Byte) × Code)) (t : Memory) : Prop :=
  ∀ p b c, dict.lookup (p, b) = some c ↔ ∃ i, (i, (⟨p, b, c⟩ : Entry)) ∈ t

theorem models_nil : Models [] [] := by
  simp [Models]

/-- A pair that PROBE misses is stored nowhere (40_dictionary.md R107). -/
theorem Inv.not_mem_of_miss (hs : Inv s) {idx n : Nat} (hp : probe s.table c b = .miss idx n) (i : Nat) (d : Code) :
    (i, (⟨c, b, d⟩ : Entry)) ∉ s.table := fun hmem => by
  obtain ⟨k, hhit⟩ := hs.probe_stored hmem
  cases hp.symm.trans hhit

theorem Models.lookup_of_hit {dict : List ((Code × Byte) × Code)} (hm : Models dict s.table) (hwf : s.table.wf)
    {idx n : Nat} {e : Entry} (hp : probe s.table c b = .hit idx n e) : dict.lookup (c, b) = some e.code := by
  obtain ⟨-, -, hread, rfl, rfl⟩ := probe_hit hp
  exact (hm _ _ _).2 ⟨idx, (tableRead_eq_some_iff hwf _ _).1 hread⟩

theorem Models.lookup_of_miss {dict : List ((Code × Byte) × Code)} (hm : Models dict s.table) (hs : Inv s)
    {idx n : Nat} (hp : probe s.table c b = .miss idx n) : dict.lookup (c, b) = none :=
  Option.eq_none_iff_forall_not_mem.2 fun d hd => by
    obtain ⟨i, hmem⟩ := (hm _ _ _).1 hd
    exact hs.not_mem_of_miss hp i d hmem

/-- Adding a missed pair to the map and to the table keeps them equal. -/
theorem Models.insert {dict : List ((Code × Byte) × Code)} (hm : Models dict s.table) (hs : Inv s) {idx n : Nat}
    (hp : probe s.table c b = .miss idx n) (d : Code) :
    Models (((c, b), d) :: dict) (tableWrite s.table idx (some ⟨c, b, d⟩)) := by
  intro q a e
  simp only [mem_tableWrite_of_miss hs.tableWf hp, Prod.mk.injEq, Entry.mk.injEq]
  by_cases hpair : (q, a) = (c, b)
  · cases hpair
    have hnew := fun i => hs.not_mem_of_miss hp i e
    simp [hnew, eq_comm]
  · have hne : ¬ (q = c ∧ a = b) := fun h => hpair (by rw [h.1, h.2])
    rw [List.lookup_cons, beq_false_of_ne hpair, hm q a e]
    refine exists_congr fun i => ⟨Or.inr, fun h => h.resolve_left fun hi => hne ⟨hi.2.1, hi.2.2.1⟩⟩

/-- Beside a BYTE the map-based encoder packs the same codes and stays equal to the table (41_encoder_loop.md R144). -/
theorem ByteStep.mapLoop_eq (h : ByteStep b c s t cs) (hs : Inv s) {d : Code} (hd : t.cur = some d)
    {dict : List ((Code × Byte) × Code)} (hm : Models dict s.table) :
    ∃ dict', Models dict' t.table ∧
      ∀ bs, mapLoop dict s.next.toNat c (b :: bs) = cs ++ mapLoop dict' t.next.toNat d bs := by
  cases h with
  | hit hp hcur htable hnext =>
    cases hcur.symm.trans hd
    refine ⟨dict, htable ▸ hm, fun bs => ?_⟩
    rw [mapLoop, hm.lookup_of_hit hs.tableWf hp, hnext, List.nil_append]
  | learn hp hcur hroom htable hnext =>
    cases hcur.symm.trans hd
    refine ⟨_, htable ▸ hm.insert hs hp s.next, fun bs => ?_⟩
    rw [mapLoop, hm.lookup_of_miss hs hp, hnext, BitVec.ofNat_toNat, BitVec.setWidth_eq]
    exact if_pos hroom
  | full hp hcur hfull htable hnext =>
    cases hcur.symm.trans hd
    refine ⟨dict, htable ▸ hm, fun bs => ?_⟩
    rw [mapLoop, hm.lookup_of_miss hs hp, hnext]
    exact if_neg hfull

end

end Sys2Proof.Machine
end

section
/-! A run from a fresh state over a list of bytes (41_encoder_loop.md R138, R139, R144). -/

namespace Sys2Proof.Machine

/-- The run from the fresh state `s` over the bytes of the first list, not empty, came to `t`; the second list holds the codes
packed. -/
inductive Encoded (s : State) : List Byte → List Code → State → Prop
  | first {t : State} {b : Byte} (ht : Inv t) (hcur : t.cur = some (zext12 b)) (htable : t.table = [])
      (hnext : t.next = 256#12) (hpack : Packs s [] t) : Encoded s [b] [] t
  | byte {t u : State} {bs : List Byte} {cs ds : List Code} {b : Byte} {c : Code} (henc : Encoded s bs cs t)
      (hcur : t.cur = some c) (hc : c.toNat < t.next.toNat) (hstep : ByteStep b c t u ds) (hu : Inv u) :
      Encoded s (bs ++ [b]) (cs ++ ds) u

section
variable {s t : State} {bs : List Byte} {cs : List Code}

theorem Encoded.inv (h : Encoded s bs cs t) : Inv t := by
  cases h with
  | first ht => exact ht
  | byte _ _ _ _ hu => exact hu

theorem Encoded.packs (h : Encoded s bs cs t) : Packs s cs t := by
  induction h with
  | first _ _ _ _ hpack => exact hpack
  | byte _ _ _ hstep _ ih => exact ih.trans hstep.packs

/-- Fewer codes than bytes were packed (41_encoder_loop.md R139). -/
theorem Encoded.length_lt (h : Encoded s bs cs t) : cs.length + 1 ≤ bs.length := by
  induction h with
  | first => exact Nat.le_refl 1
  | byte _ _ _ hstep _ ih =>
    have hone := hstep.length_le
    rw [List.length_append, List.length_append, List.length_singleton]
    omega

theorem Encoded.next_eq (h : Encoded s bs cs t) : t.next.toNat = min (256 + cs.length) 4095 := by
  induction h with
  | first _ _ _ hnext => rw [hnext]; rfl
  | byte _ _ _ hstep _ ih =>
    rw [hstep.next_eq, ih, List.length_append]
    omega

/-- One entry was inserted for each code packed, while the code space lasted (41_encoder_loop.md R139). -/
theorem Encoded.table_length (h : Encoded s bs cs t) : t.table.length = min cs.length 3839 := by
  rw [h.inv.tableInv.length_eq, h.next_eq]
  omega

theorem Encoded.codes_lt (h : Encoded s bs cs t) : ∀ d ∈ cs, d.toNat < t.next.toNat := by
  induction h with
  | first => simp
  | byte _ _ hc hstep _ ih =>
    have hgrow := hstep.next_le
    intro d hd
    rcases List.mem_append.1 hd with hold | hnew
    · exact (ih d hold).trans_le hgrow
    · exact (hstep.codes_lt hc d hnew).trans_le hgrow

/-- The strings of the codes packed, followed by that of `cur`, are the bytes (41_encoder_loop.md R138). -/
theorem Encoded.spells (h : Encoded s bs cs t) {c : Code} (hc : t.cur = some c) :
    cs.flatMap (codeString t.table) ++ codeString t.table c = bs := by
  induction h generalizing c with
  | first _ hcur =>
    cases hcur.symm.trans hc
    exact codeString_zext12 _ _
  | @byte t u bs cs ds b d henc hcur hlt hstep hu ih =>
    have hkeep : cs.flatMap (codeString u.table) = cs.flatMap (codeString t.table) :=
      List.flatMap_congr fun e he => henc.inv.tableInv.codeString_of_subset hu.tableInv
        (hstep.table_subset henc.inv.tableWf) (henc.codes_lt e he)
    calc (cs ++ ds).flatMap (codeString u.table) ++ codeString u.table c
        = cs.flatMap (codeString t.table) ++ (ds.flatMap (codeString u.table) ++ codeString u.table c) := by
          rw [List.flatMap_append, List.append_assoc, hkeep]
      _ = (cs.flatMap (codeString t.table) ++ codeString t.table d) ++ [b] := by
          rw [hstep.spells henc.inv hu hlt hc, List.append_assoc]
      _ = bs ++ [b] := by rw [ih hcur]

/-- The map-based encoder has packed the same codes, and goes on from an equal table (41_encoder_loop.md R144). -/
theorem Encoded.mapCodes_append (h : Encoded s bs cs t) {c : Code} (hc : t.cur = some c) :
    ∃ dict, Models dict t.table ∧ ∀ more, mapCodes (bs ++ more) = cs ++ mapLoop dict t.next.toNat c more := by
  induction h generalizing c with
  | first _ hcur htable hnext =>
    cases hcur.symm.trans hc
    exact ⟨[], htable ▸ models_nil, fun more => by rw [hnext]; rfl⟩
  | @byte t u bs cs ds b d henc hcur _ hstep _ ih =>
    obtain ⟨dict, hm, hmore⟩ := ih hcur
    obtain ⟨dict', hm', hloop⟩ := hstep.mapLoop_eq henc.inv hc hm
    exact ⟨dict', hm', fun more => by rw [List.append_assoc, List.singleton_append, hmore, hloop, List.append_assoc]⟩

theorem Encoded.mapCodes_eq (h : Encoded s bs cs t) {c : Code} (hc : t.cur = some c) : mapCodes bs = cs ++ [c] := by
  obtain ⟨dict, -, hmore⟩ := h.mapCodes_append hc
  simpa [mapLoop] using hmore []

end

theorem step_byteWord {s : State} {b : Byte} {rest : List HostAction} (hin : s.input = .command (byteWord b) :: rest) :
    step s = exec (.byte b) { s with input := rest } :=
  (step_of_command hin).trans (acceptCommand_of_decode (decode_eq_command_iff.2 rfl) _)

theorem step_endWord {s : State} {rest : List HostAction} (hin : s.input = .command endWord :: rest) :
    step s = exec .endOfInput { s with input := rest } :=
  (step_of_command hin).trans (acceptCommand_of_decode (decode_eq_command_iff.2 rfl) _)

/-- The first byte of a run (41_encoder_loop.md R133). -/
theorem Inv.step_first_byte {s : State} {b : Byte} {rest : List HostAction} (h : Inv s) (h0 : s.fault = 0#2)
    (hs : s.state = .start) (hin : s.input = .command (byteWord b) :: rest) :
    ∃ t, step s = .next t ∧ (t.fault = 0#2 ∧ t.state = .running ∧ t.input = rest) ∧ Encoded s [b] [] t := by
  have hx : step s = .next (firstByte b { s with input := rest }) :=
    (step_byteWord hin).trans (exec_byte_of_start (s := { s with input := rest }) h0 hs b)
  obtain ⟨-, hnext, -, -, htable⟩ := h.startFresh hs
  exact ⟨_, hx, ⟨h0, rfl, rfl⟩, .first (step_keeps_inv h hx) rfl htable hnext (Packs.of_eq rfl rfl rfl)⟩

/-- One further byte of a run (41_encoder_loop.md R134). -/
theorem Encoded.step_byte {s t : State} {bs : List Byte} {cs : List Code} {b : Byte} {rest : List HostAction}
    (h : Encoded s bs cs t) (h0 : t.fault = 0#2) (hs : t.state = .running)
    (hin : t.input = .command (byteWord b) :: rest) :
    ∃ u ds, step t = .next u ∧ (u.fault = 0#2 ∧ u.state = .running ∧ u.input = rest) ∧ Encoded s (bs ++ [b]) ds u := by
  obtain ⟨u, hx⟩ := h.inv.step_completes
  obtain ⟨c, hcur, hc⟩ := h.inv.runningCur hs
  obtain ⟨hlive, ds, hstep⟩ := (inv_set_input h.inv rest).byteStep h0 hs hcur ((step_byteWord hin).symm.trans hx)
  exact ⟨u, cs ++ ds, hx, hlive, .byte h hcur hc hstep.of_set_input (step_keeps_inv h.inv hx)⟩

/-- A run over bytes goes on without a fault, and leaves what the host does after them. -/
theorem Encoded.run_bytes {s t : State} {bs done : List Byte} {cs : List Code} {rest : List HostAction}
    (h : Encoded s done cs t) (h0 : t.fault = 0#2) (hs : t.state = .running)
    (hin : t.input = bs.map (fun b => .command (byteWord b)) ++ rest) :
    ∃ u ds, Sys2Proof.core.run bs.length t = .next u ∧ (u.fault = 0#2 ∧ u.state = .running ∧ u.input = rest) ∧
      Encoded s (done ++ bs) ds u := by
  induction bs generalizing done cs t with
  | nil => exact ⟨t, cs, rfl, ⟨h0, hs, hin⟩, (List.append_nil done).symm ▸ h⟩
  | cons b bs ih =>
    obtain ⟨u, ds, hx, ⟨hu0, hus, huin⟩, henc⟩ := h.step_byte h0 hs hin
    obtain ⟨v, es, hrun, hlive, henc'⟩ := ih henc hu0 hus huin
    refine ⟨v, es, run_succ_eq_next_iff.2 ⟨u, hx, hrun⟩, hlive, ?_⟩
    rwa [List.append_assoc, List.singleton_append] at henc'

/-- A run from a fresh state over a list of bytes that is not empty. -/
theorem Inv.run_bytes {s : State} {bs : List Byte} {rest : List HostAction} (h : Inv s) (h0 : s.fault = 0#2)
    (hs : s.state = .start) (hbs : bs ≠ []) (hin : s.input = bs.map (fun b => .command (byteWord b)) ++ rest) :
    ∃ t cs, Sys2Proof.core.run bs.length s = .next t ∧ (t.fault = 0#2 ∧ t.state = .running ∧ t.input = rest) ∧
      Encoded s bs cs t := by
  cases bs with
  | nil => exact absurd rfl hbs
  | cons b bs =>
    obtain ⟨u, hx, ⟨hu0, hus, huin⟩, henc⟩ := h.step_first_byte h0 hs hin
    obtain ⟨t, cs, hrun, hlive, henc'⟩ := henc.run_bytes hu0 hus huin
    exact ⟨t, cs, run_succ_eq_next_iff.2 ⟨u, hx, hrun⟩, hlive, henc'⟩

end Sys2Proof.Machine
end

section
/-! The end of a run (41_encoder_loop.md R135, R144; 70_reset_and_hazards.md R229), and the statements about whole runs. -/

namespace Sys2Proof.Machine

@[simp] theorem emitted_fault (c : Code) (s : State) : (emitted c s).fault = s.fault := by
  rw [emitted_eta]

@[simp] theorem emitted_input (c : Code) (s : State) : (emitted c s).input = s.input := by
  rw [emitted_eta]

@[simp] theorem flush_fault (s : State) : (flush s).fault = s.fault := by
  rw [flush_eta]

@[simp] theorem flush_input (s : State) : (flush s).input = s.input := by
  rw [flush_eta]

/-- END where it is legal packs the pending code, if there is one, and the end-of-stream code, and flushes
(41_encoder_loop.md R135). -/
theorem Inv.exec_endOfInput {s : State} (h : Inv s) (h0 : s.fault = 0#2) (hs : s.state = .start ∨ s.state = .running) :
    ∃ u, exec .endOfInput s = .next { flush u with state := .done } ∧ Packs s (s.cur.toList ++ [eosCode]) u ∧ BufferOk u ∧
      u.fault = 0#2 ∧ u.input = s.input := by
  have hb := h.bufferOk
  rcases hs with hs | hs
  · have hcur := (h.startFresh hs).1
    refine ⟨emitted eosCode s, exec_endOfInput_of_start h0 hs hb.cnt_le, ?_, hb.emitted _, by simp [h0], by simp⟩
    rw [hcur]
    exact packs_emitted hb _
  · obtain ⟨c, hcur, -⟩ := h.runningCur hs
    have hb' := hb.emitted c
    refine ⟨emitted eosCode (emitted c s), exec_endOfInput_of_running h0 hs hcur hb.cnt_le hb'.cnt_le, ?_, hb'.emitted _,
      by simp [h0], by simp⟩
    rw [hcur]
    exact (packs_emitted hb c).trans (packs_emitted hb' _)

/-- A run of `k` steps and a step are a run of `k + 1`. -/
theorem run_succ_of_step {k : Nat} {s t u : State} (hrun : Sys2Proof.core.run k s = .next t) (hx : step t = .next u) :
    Sys2Proof.core.run (k + 1) s = .next u := by
  induction k generalizing s with
  | zero =>
    cases hrun
    exact run_succ_eq_next_iff.2 ⟨u, hx, rfl⟩
  | succ k ih =>
    obtain ⟨s', hfirst, hrest⟩ := run_succ_eq_next_iff.1 hrun
    exact run_succ_eq_next_iff.2 ⟨s', hfirst, ih hrest⟩

/-- A fresh state given any bytes, or none, is ready for END, with the codes of the map-based encoder packed but for the one in
`cur` (41_encoder_loop.md R144). -/
theorem Inv.run_to_end {s : State} {bs : List Byte} {rest : List HostAction} (h : Inv s) (h0 : s.fault = 0#2)
    (hs : s.state = .start) (hin : s.input = bs.map (fun b => .command (byteWord b)) ++ rest) :
    ∃ t cs, Sys2Proof.core.run bs.length s = .next t ∧ Inv t ∧ t.fault = 0#2 ∧ (t.state = .start ∨ t.state = .running) ∧
      t.input = rest ∧ Packs s cs t ∧ mapCodes bs = cs ++ t.cur.toList := by
  by_cases hbs : bs = []
  · subst hbs
    have hcur := (h.startFresh hs).1
    exact ⟨s, [], rfl, h, h0, Or.inl hs, hin, Packs.of_eq rfl rfl rfl, by rw [hcur]; rfl⟩
  · obtain ⟨t, cs, hrun, ⟨ht0, hts, htin⟩, henc⟩ := h.run_bytes h0 hs hbs hin
    obtain ⟨c, hcur, -⟩ := henc.inv.runningCur hts
    exact ⟨t, cs, hrun, henc.inv, ht0, Or.inr hts, htin, henc.packs, by rw [hcur]; exact henc.mapCodes_eq hcur⟩

end Sys2Proof.Machine

namespace Sys2Proof.Proofs

open Sys2Proof.Machine

/-- Settles O44: the history of the run (`Encoded`) packs codes whose strings spell the bytes, and learns one entry for each. -/
theorem emittedCodesSpellTheInput : Obligations.EmittedCodesSpellTheInput := by
  intro s bs rest h h0 hs hbs hin
  obtain ⟨t, cs, hrun, ⟨ht0, hts, htin⟩, henc⟩ := h.run_bytes h0 hs hbs hin
  obtain ⟨c, hcur, -⟩ := henc.inv.runningCur hts
  obtain ⟨ys, hout, hbits⟩ := henc.packs
  obtain ⟨-, -, hcnt, -⟩ := h.startFresh hs
  rw [pendingBits_of_cnt_zero hcnt, List.nil_append] at hbits
  exact ⟨t, cs, ys, c, hrun, ht0, hts, htin, hcur, hout, hbits, henc.spells hcur, henc.length_lt, henc.table_length⟩

/-- Settles O45: the bytes pack the map-based encoder's codes but for the last, END packs that one and the end-of-stream code, and
FLUSH pads. -/
theorem runEqualsMapEncoder : Obligations.RunEqualsMapEncoder := by
  intro s bs rest h h0 hs hin
  rw [streamActions, List.append_assoc] at hin
  obtain ⟨t, cs, hrun, ht, ht0, hts, htin, hpack, hcodes⟩ := h.run_to_end h0 hs hin
  obtain ⟨u, hx, hpack', hbuf, hu0, huin⟩ := (inv_set_input ht rest).exec_endOfInput ht0 hts
  obtain ⟨-, -, hcnt, -⟩ := h.startFresh hs
  have hall : Packs s (mapCodes bs ++ [eosCode]) u := by
    rw [hcodes, List.append_assoc]
    exact hpack.trans hpack'
  obtain ⟨ys, hout, hlen, hbits⟩ := hall.flush_padded hcnt hbuf
  rw [List.length_append, List.length_singleton] at hlen hbits
  refine ⟨_, ys, run_succ_of_step hrun ((step_endWord htin).trans hx), ⟨rfl, by simp [hu0], ?persist⟩, by simp [huin], hout,
    hlen, hbits⟩
  case persist =>
    change (flush u).out.getLast? = _
    rw [hout, List.getLast?_concat]

/-- Settles O46: both runs output the bytes whose bits O45 gives, and bytes are determined by their bits. -/
theorem runsAreIndependentOfHistory : Obligations.RunsAreIndependentOfHistory := by
  intro s s' t t' bs rest rest' h h' h0 h0' hs hs' hin hin' hrun hrun'
  obtain ⟨u, ys, hu, -, -, hout, hlen, hbits⟩ := runEqualsMapEncoder s bs rest h h0 hs hin
  obtain ⟨u', ys', hu', -, -, hout', hlen', hbits'⟩ := runEqualsMapEncoder s' bs rest' h' h0' hs' hin'
  cases hrun.symm.trans hu
  cases hrun'.symm.trans hu'
  have hys : ys' = ys := flatMap_byteBits_injective (by rw [hbits', hbits, hlen', hlen])
  rw [hys] at hout'
  exact ⟨byteEvents ys ++ [.outPersist], by rw [hout, List.append_assoc], by rw [hout', List.append_assoc]⟩

/-- Settles O43: a hit takes the code of a stored entry, a miss packs `cur` and may store one, and strings survive both. -/
theorem currentCodeSpellsItsMatch : Obligations.CurrentCodeSpellsItsMatch := by
  intro s t b c h h0 hrun hcur hx
  obtain ⟨d, hd, hc⟩ := h.runningCur hrun
  cases hcur.symm.trans hd
  have ht : Inv t := execByte_keeps_inv h h0 hx
  obtain ⟨-, cs, hstep⟩ := h.byteStep h0 hrun hcur hx
  have hstrings := fun (d : Code) (hd : d.toNat < s.next.toNat) =>
    h.tableInv.codeString_of_subset ht.tableInv (hstep.table_subset h.tableWf) hd
  refine ⟨fun d hd => ⟨hstrings d hd, h.tableInv.codeString_ne_nil hd⟩, ?_⟩
  obtain ⟨ys, hout, hbits⟩ := hstep.packs
  have hspells := fun d => hstep.spells h ht hc (d := d)
  have hlearned := fun hcs : cs = [c] => (hcs ▸ hstep).codeString_next h ht hc
  cases hstep with
  | hit _ hcur' _ _ hsame => exact Or.inl ⟨hsame, _, hcur', hspells _ hcur'⟩
  | learn _ hcur' | full _ hcur' =>
    rw [List.flatMap_singleton] at hbits
    exact Or.inr ⟨hcur', codeString_zext12 _ _, hlearned rfl, ys, hout, hbits⟩

end Sys2Proof.Proofs
end

section
/-! The bytes of EMIT and FLUSH for the bit buffers that occur between steps, written out (42_bit_packer.md R171 (b), R173). -/

namespace Sys2Proof.Machine

theorem topByte_placeCode_zero (c : Code) : topByte (placeCode c 0) = c.extractLsb' 4 8 := by
  refine BitVec.eq_of_getLsbD_eq fun j hj => ?_
  rw [topByte, BitVec.getLsbD_extractLsb', BitVec.getLsbD_extractLsb', getLsbD_placeCode,
    show 24 + j - (20 - 0) = 4 + j by omega]
  simp [show 24 + j < 32 by omega, show ¬ 24 + j < 20 by omega]

theorem placeCode_zero_shiftLeft (c : Code) : placeCode c 0 <<< 8 = (c.extractLsb' 0 4 : BitVec 4) ++ 0#28 := by
  refine BitVec.eq_of_getLsbD_eq fun j hj => ?_
  rw [placeCode, ← BitVec.shiftLeft_add, BitVec.getLsbD_shiftLeft, BitVec.getLsbD_setWidth, BitVec.getLsbD_append,
    BitVec.getLsbD_extractLsb']
  by_cases hlow : j < 28
  · simp [hlow]
  · simp [hj, hlow, show j - 28 < 32 by omega, show j - 28 < 4 by omega]

/-- After four pending bits: they head the first byte, with the upper four bits of the code below them. -/
theorem topByte_or_placeCode_four {acc : BitVec 32} (c : Code) (hacc : acc <<< 4 = 0#32) :
    topByte (acc ||| placeCode c 4) = (acc.extractLsb' 28 4 : BitVec 4) ++ (c.extractLsb' 8 4 : BitVec 4) := by
  refine BitVec.eq_of_getLsbD_eq fun j hj => ?_
  rw [topByte, BitVec.getLsbD_extractLsb', BitVec.getLsbD_or, getLsbD_placeCode, BitVec.getLsbD_append,
    BitVec.getLsbD_extractLsb', BitVec.getLsbD_extractLsb', show 24 + j - (20 - 4) = 8 + j by omega]
  by_cases hlow : j < 4
  · have hzero : acc.getLsbD (24 + j) = false := getLsbD_below_pending hacc (by omega)
    rw [hzero, Bool.false_or]
    simp [hj, hlow, show 24 + j < 32 by omega, show ¬ 24 + j < 16 by omega]
  · have hzero : c.getLsbD (8 + j) = false := BitVec.getLsbD_of_ge _ _ (by omega)
    simp [hj, hlow, hzero, show j - 4 < 4 by omega, show 28 + (j - 4) = 24 + j by omega]

theorem shiftLeft_eight_of_four {acc : BitVec 32} (hacc : acc <<< 4 = 0#32) : acc <<< 8 = 0#32 := by
  rw [show 8 = 4 + 4 from rfl, BitVec.shiftLeft_add, hacc]
  rfl

theorem topByte_shiftLeft_or_placeCode_four {acc : BitVec 32} (c : Code) (hacc : acc <<< 4 = 0#32) :
    topByte ((acc ||| placeCode c 4) <<< 8) = c.extractLsb' 0 8 := by
  refine BitVec.eq_of_getLsbD_eq fun j hj => ?_
  rw [BitVec.shiftLeft_or_distrib, shiftLeft_eight_of_four hacc, BitVec.zero_or, placeCode, ← BitVec.shiftLeft_add, topByte,
    BitVec.getLsbD_extractLsb', BitVec.getLsbD_shiftLeft, BitVec.getLsbD_setWidth, BitVec.getLsbD_extractLsb',
    show 24 + j - (20 - 4 + 8) = 0 + j by omega]
  simp [show 24 + j < 32 by omega, show j < 32 by omega]

/-- EMIT into an empty bit buffer (42_bit_packer.md R171 (b)). -/
theorem emitted_of_empty {s : State} (c : Code) (hcnt : s.cnt = 0#5) (hacc : s.acc = 0#32) :
    emitted c s = { s with
      acc := (c.extractLsb' 0 4 : BitVec 4) ++ 0#28, cnt := 4#5, out := s.out ++ [.outByte (c.extractLsb' 4 8)] } := by
  rw [emitted_of_cnt_zero c hcnt, ← topByte_placeCode_zero, ← placeCode_zero_shiftLeft]
  simp [drainByte, outByte, pushBits, hcnt, hacc, Config.bits]

/-- EMIT after four pending bits (42_bit_packer.md R171 (b)). -/
theorem emitted_of_half {s : State} (c : Code) (hcnt : s.cnt = 4#5) (hacc : s.acc <<< 4 = 0#32) :
    emitted c s = { s with
      acc := 0#32, cnt := 0#5,
      out := s.out ++ [.outByte ((s.acc.extractLsb' 28 4 : BitVec 4) ++ (c.extractLsb' 8 4 : BitVec 4)),
                       .outByte (c.extractLsb' 0 8)] } := by
  have hclear := pushed_clear c (k := 4) (by decide) hacc
  rw [emitted_of_cnt_four c hcnt, ← topByte_or_placeCode_four c hacc, ← topByte_shiftLeft_or_placeCode_four c hacc, ← hclear]
  simp [drainByte, outByte, pushBits, hcnt, Config.bits, ← BitVec.shiftLeft_add]

theorem flush_of_empty {s : State} (hcnt : s.cnt = 0#5) : flush s = outPersist s := by
  simp [flush, hcnt]

/-- FLUSH of four pending bits (42_bit_packer.md R173). -/
theorem flush_of_half {s : State} (hcnt : s.cnt = 4#5) (hacc : s.acc <<< 4 = 0#32) :
    flush s = { s with acc := 0#32, cnt := 0#5, out := s.out ++ [.outByte (topByte s.acc), .outPersist] } := by
  simp [flush, hcnt, shiftLeft_eight_of_four hacc, outPersist, outByte]

theorem append_zero_shiftLeft (x : BitVec 4) : (x ++ 0#28 : BitVec 32) <<< 4 = 0#32 := by
  revert x
  decide

/-- The end-of-stream code and FLUSH from an empty bit buffer (41_encoder_loop.md R135). -/
theorem flush_emitted_eos_of_empty {s : State} (hcnt : s.cnt = 0#5) (hacc : s.acc = 0#32) :
    flush (emitted eosCode s) = { s with
      acc := 0#32, cnt := 0#5, out := s.out ++ [.outByte 0xFF#8, .outByte 0xF0#8, .outPersist] } := by
  have hu := emitted_of_empty eosCode hcnt hacc
  have hclear : (emitted eosCode s).acc <<< 4 = 0#32 := by
    rw [hu]
    exact append_zero_shiftLeft _
  rw [flush_of_half (by rw [hu]) hclear, hu]
  simp [topByte]

/-- The end-of-stream code and FLUSH after four pending bits (41_encoder_loop.md R135). -/
theorem flush_emitted_eos_of_half {s : State} (hcnt : s.cnt = 4#5) (hacc : s.acc <<< 4 = 0#32) :
    flush (emitted eosCode s) = { s with
      acc := 0#32, cnt := 0#5,
      out := s.out ++ [.outByte ((s.acc.extractLsb' 28 4 : BitVec 4) ++ 0xF#4), .outByte 0xFF#8, .outPersist] } := by
  rw [emitted_of_half _ hcnt hacc, flush_of_empty rfl, outPersist, List.append_assoc]
  rfl

/-- The pending code, the end-of-stream code and FLUSH from an empty bit buffer (41_encoder_loop.md R135). -/
theorem flush_emitted_pending_of_empty {s : State} (c : Code) (hcnt : s.cnt = 0#5) (hacc : s.acc = 0#32) :
    flush (emitted eosCode (emitted c s)) = { s with
      acc := 0#32, cnt := 0#5,
      out := s.out ++ [.outByte (c.extractLsb' 4 8), .outByte ((c.extractLsb' 0 4 : BitVec 4) ++ 0xF#4), .outByte 0xFF#8,
                       .outPersist] } := by
  have hu := emitted_of_empty c hcnt hacc
  have hclear : (emitted c s).acc <<< 4 = 0#32 := by
    rw [hu]
    exact append_zero_shiftLeft _
  have hnibble : (emitted c s).acc.extractLsb' 28 4 = c.extractLsb' 0 4 := by
    rw [hu]
    exact BitVec.extractLsb'_append_eq_left
  rw [flush_emitted_eos_of_half (by rw [hu]) hclear, hnibble, hu]
  simp

/-- The pending code, the end-of-stream code and FLUSH after four pending bits (41_encoder_loop.md R135). -/
theorem flush_emitted_pending_of_half {s : State} (c : Code) (hcnt : s.cnt = 4#5) (hacc : s.acc <<< 4 = 0#32) :
    flush (emitted eosCode (emitted c s)) = { s with
      acc := 0#32, cnt := 0#5,
      out := s.out ++ [.outByte ((s.acc.extractLsb' 28 4 : BitVec 4) ++ (c.extractLsb' 8 4 : BitVec 4)),
                       .outByte (c.extractLsb' 0 8), .outByte 0xFF#8, .outByte 0xF0#8, .outPersist] } := by
  have hu := emitted_of_half c hcnt hacc
  rw [flush_emitted_eos_of_empty (by rw [hu]) (by rw [hu]), hu]
  simp

end Sys2Proof.Machine
end

section
/-! The statements about the commands one by one (41_encoder_loop.md R131 to R137, R142; 60_exceptions.md R191, R194). -/

namespace Sys2Proof.Machine

/-- A faulted core holds everything but the host's list over a command (41_encoder_loop.md R142; log entry 7). -/
theorem acceptCommand_of_faulted {s : State} (h : s.fault ≠ 0#2) (w : CmdWord) : acceptCommand w s = .next s := by
  unfold acceptCommand
  split
  · exact exec_of_faulted _ h
  · exact whenHealthy_of_faulted h _
  · exact whenHealthy_of_faulted h _

theorem raise_of_faulted {s : State} (h : s.fault ≠ 0#2) (c : Cause) (info : BitVec 16) : raise c info s = s := if_neg h

theorem raise_fault_ne_zero (c : Cause) (info : BitVec 16) (s : State) : (raise c info s).fault ≠ 0#2 := by
  by_cases h : s.fault = 0#2
  · rw [raise_of_healthy h]
    exact causeCode_ne_zero c
  · rwa [raise_of_faulted h]

theorem cmdReady_of_faulted {s : State} (h : s.fault ≠ 0#2) : cmdReady s = false := decide_eq_false h

/-- EMIT outputs a byte, since the code alone fills one (42_bit_packer.md R171). -/
theorem emitted_out_ne_nil (c : Code) {s : State} (hcnt : s.cnt.toNat ≤ 19) :
    ∃ bs, bs ≠ [] ∧ (emitted c s).out = s.out ++ byteEvents bs := by
  have hfull : 8 ≤ (pushBits c s).cnt.toNat := by
    rw [pushBits_cnt]
    bv_omega
  obtain ⟨bs, hbs⟩ := drainLoop_frame 2 (drainByte (pushBits c s))
  refine ⟨topByte (pushBits c s).acc :: bs, List.cons_ne_nil _ _, ?_⟩
  rw [emitted, drainLoop, if_pos hfull, hbs]
  simp [byteEvents]

end Sys2Proof.Machine

namespace Sys2Proof.Proofs

open Sys2Proof.Machine

/-- Settles O11: an entry PROTOCOL is `exec_of_protocolIn`, a legal command has its equation or its inversion lemma. -/
theorem transitionTable : Obligations.TransitionTable := by
  refine ⟨fun st => ?table, fun s h0 => ⟨fun i w hp hi => exec_of_protocolIn h0 hi hp,
    fun hs => ⟨_, exec_init_of_legal h0 hs, rfl, h0⟩, fun b hs => ⟨_, exec_byte_of_start h0 hs b, rfl, h0⟩, ?byte, ?endOfInput,
    fun r => ⟨_, exec_abort_of_healthy h0 r, rfl, rfl⟩⟩⟩
  case table => cases st <;> simp [protocolIn]
  case byte =>
    intro b t hs hx
    rcases execByte_cases h0 hx with ⟨hprotocol, -⟩ | ⟨hstart, -⟩ | ⟨-, idx, n, e, -, rfl⟩ | ⟨-, -, idx, n, -, rfl⟩ |
      ⟨-, hover, rfl⟩
    · simp [protocolIn, hs] at hprotocol
    · simp [hs] at hstart
    · exact ⟨hs, Or.inl h0⟩
    · exact ⟨hs, Or.inl h0⟩
    · exact ⟨hs, Or.inr ⟨rfl, hover⟩⟩
  case endOfInput =>
    intro t hs hx
    rcases execEndOfInput_cases h0 hx with ⟨hprotocol, -⟩ | ⟨-, ht, -⟩
    · rcases hs with hs | hs <;> simp [protocolIn, hs] at hprotocol
    · rw [ht]
      exact ⟨rfl, h0⟩

/-- Settles O13: the equation of each answer of PROBE; the bytes are those of EMIT into an empty and after a half-full byte. -/
theorem byteStepInRunning : Obligations.ByteStepInRunning := by
  intro s b c h0 hs hcur
  have hread := readCur_of_cur hcur
  refine ⟨fun idx n e hp => ?hit, fun idx n hp => ?miss, fun hp => ?overflow⟩
  case hit =>
    obtain ⟨-, -, hslot, -⟩ := probe_hit hp
    exact ⟨hslot, exec_byte_of_hit h0 hs (hread ▸ hp)⟩
  case miss =>
    intro t
    have hemit : s.cnt.toNat ≤ 20 → exec (.byte b) s = .next { t with
        acc := (emitted c s).acc, cnt := (emitted c s).cnt, out := (emitted c s).out } := fun hcnt => by
      rw [exec_byte_of_miss h0 hs (hread.symm ▸ hp) hcnt, hread]
      by_cases hroom : s.next.toNat ≤ 4094
      · simp only [t, if_pos hroom, (dictFull_eq_false_iff s).2 hroom]
        rfl
      · simp only [t, if_neg hroom, show dictFull s = true from decide_eq_true (Nat.not_le.1 hroom)]
        rfl
    refine ⟨fun u hu => ?emit, fun hcnt hacc => ?empty, fun hcnt hacc => ?half⟩
    case emit =>
      obtain ⟨hcnt, rfl⟩ := execPacked_cases h0 (Or.inr rfl) hu
      exact hemit hcnt
    case empty => rw [hemit (by rw [hcnt]; decide), emitted_of_empty c hcnt hacc]
    case half => rw [hemit (by rw [hcnt]; decide), emitted_of_half c hcnt hacc]
  case overflow => exact hread ▸ exec_byte_of_overflow h0 hs (hread.symm ▸ hp)

/-- Settles O14: the equations of END; the bytes are those of EMIT and FLUSH, from an empty and from a half-full byte. -/
theorem endEmitsPendingAndSentinel : Obligations.EndEmitsPendingAndSentinel := by
  intro s h0
  have hpacked : ∀ {c : Code} {s u : State}, s.fault = 0#2 → exec (.emit c) s = .next u → s.cnt.toNat ≤ 20 ∧ u = emitted c s :=
    fun h hu => execPacked_cases h (Or.inr rfl) hu
  refine ⟨?start, ?running, ?startEmpty, ?runningEmpty, ?runningHalf, ?illegal⟩
  case start =>
    intro u v hs hu hv
    obtain ⟨hcnt, rfl⟩ := hpacked h0 hu
    rw [execFlush_cases (by simp [h0]) hv]
    exact exec_endOfInput_of_start h0 hs hcnt
  case running =>
    intro c u v w hs hcur hu hv hw
    obtain ⟨hcnt, rfl⟩ := hpacked h0 hu
    obtain ⟨hcnt', rfl⟩ := hpacked (by simp [h0]) hv
    rw [execFlush_cases (by simp [h0]) hw]
    exact exec_endOfInput_of_running h0 hs hcur hcnt hcnt'
  case startEmpty =>
    intro hs hcnt hacc
    rw [exec_endOfInput_of_start h0 hs (by rw [hcnt]; decide), flush_emitted_eos_of_empty hcnt hacc]
  case runningEmpty =>
    intro c hs hcur hcnt hacc
    have hbuf : BufferOk s := ⟨Or.inl hcnt, by rw [hacc, hcnt]; rfl⟩
    rw [exec_endOfInput_of_running h0 hs hcur hbuf.cnt_le (hbuf.emitted c).cnt_le, flush_emitted_pending_of_empty c hcnt hacc]
  case runningHalf =>
    intro c hs hcur hcnt hacc
    have hbuf : BufferOk s := ⟨Or.inr hcnt, by rw [hcnt]; exact hacc⟩
    rw [exec_endOfInput_of_running h0 hs hcur hbuf.cnt_le (hbuf.emitted c).cnt_le, flush_emitted_pending_of_half c hcnt hacc]
  case illegal =>
    intro hs
    exact exec_of_protocolIn h0 (w := endWord) rfl (by rcases hs with hs | hs <;> rw [hs] <;> rfl)

/-- Settles O16: PROBE hits, or it misses and EMIT has room; with no code left to assign nothing is inserted. -/
theorem exhaustedDictionaryKeepsEncoding : Obligations.ExhaustedDictionaryKeepsEncoding := by
  intro s b c h0 hs hcur hcnt hfull hover
  rw [← readCur_of_cur hcur] at hover ⊢
  cases hp : probe s.table (readCur s) b with
  | hit idx n e => exact ⟨_, exec_byte_of_hit h0 hs hp, h0, rfl, rfl, hs, Or.inl ⟨idx, n, e, rfl, rfl, rfl⟩⟩
  | miss idx n =>
    have hdict : dictFull s = true := decide_eq_true hfull
    obtain ⟨bs, hne, hout⟩ := emitted_out_ne_nil (readCur s) (s := s) (by omega)
    exact ⟨_, exec_byte_of_miss h0 hs hp (by omega), h0, by rw [hdict]; rfl, by rw [hdict]; rfl, hs,
      Or.inr ⟨⟨idx, n, rfl⟩, rfl, bs, hne, hout⟩⟩
  | overflow => exact absurd hp hover

/-- Settles O33: a faulted core changes nothing, and in a healthy one the cases of each command name the fields they write. -/
theorem commandFrames : Obligations.CommandFrames := by
  intro i s t hx
  by_cases h0 : s.fault = 0#2
  · cases i with
    | init =>
      rcases execInit_cases h0 hx with ⟨-, rfl⟩ | ⟨-, rfl⟩
      · exact ⟨rfl, fun _ => rfl⟩
      · exact ⟨rfl, fun hne => absurd rfl hne⟩
    | byte b =>
      rcases execByte_cases h0 hx with ⟨hprotocol, rfl⟩ | ⟨hstart, rfl⟩ | ⟨-, idx, n, e, -, rfl⟩ | ⟨-, -, idx, n, hmiss, rfl⟩ |
        ⟨-, hover, rfl⟩
      · exact ⟨rfl, fun _ => rfl, fun idx n e hrun => by simp [protocolIn, hrun] at hprotocol⟩
      · exact ⟨rfl, fun hne => absurd hstart hne, fun idx n e hrun => by simp [hstart] at hrun⟩
      · exact ⟨rfl, fun _ => rfl, fun _ _ _ _ _ => rfl⟩
      · exact ⟨rfl, fun _ => rfl, fun _ _ _ _ hhit => by simp [hmiss] at hhit⟩
      · exact ⟨rfl, fun _ => rfl, fun _ _ _ _ hhit => by simp [hover] at hhit⟩
    | endOfInput =>
      rcases execEndOfInput_cases h0 hx with ⟨-, rfl⟩ | ⟨-, ht, -⟩
      · rfl
      · rw [ht]
    | abort r => rw [execAbort_cases h0 hx]
    | lit | str | eos | hash | offset | probe | insert | emit | flush => trivial
  · rw [exec_of_faulted i h0] at hx
    cases hx
    cases i with
    | init => exact ⟨rfl, fun hne => absurd rfl hne⟩
    | byte b => exact ⟨rfl, fun _ => rfl, fun _ _ _ _ _ => rfl⟩
    | endOfInput | abort => rfl
    | lit | str | eos | hash | offset | probe | insert | emit | flush => trivial

/-- Settles O9: a faulted core holds its state over every command, and of the other steps only reset clears the fault. -/
theorem faultedCoreAcceptsNothing : Obligations.FaultedCoreAcceptsNothing := by
  intro s hf
  refine ⟨cmdReady_of_faulted hf, fun w rest hin => ?command, fun t hx ht => ?reset⟩
  case command => exact ⟨_, (step_of_command hin).trans (acceptCommand_of_faulted (s := { s with input := rest }) hf w), rfl⟩
  case reset =>
    rcases step_cases hx with ⟨-, rfl⟩ | ⟨rest, hin, -⟩ | ⟨w, rest, i, -, -, hexec⟩ | ⟨w, rest, -, -, hraise⟩
    · exact absurd ht hf
    · exact ⟨rest, hin⟩
    · cases (exec_of_faulted (s := { s with input := rest }) i hf).symm.trans hexec
      exact absurd ht hf
    · cases (whenHealthy_of_faulted (s := { s with input := rest }) hf _).symm.trans hraise
      exact absurd ht hf

/-- Settles O12: the equation of BYTE in START, with `zext_12` written out. -/
theorem firstByteBecomesCurrentCode : Obligations.FirstByteBecomesCurrentCode := fun _ b h0 hs => exec_byte_of_start h0 hs b

/-- Settles O15: the equation of ABORT, whose recorded word is `zext16_abortWord`. -/
theorem abortRecordsHostFailure : Obligations.AbortRecordsHostFailure := fun _ r h0 => exec_abort_of_healthy h0 r

/-- Settles O17: the two branches of `raise`, each of which leaves a fault. -/
theorem raiseRecordsFirstCause : Obligations.RaiseRecordsFirstCause := by
  intro c info s
  refine ⟨fun h0 => ?first, fun hf => raise_of_faulted hf c info, cmdReady_of_faulted (raise_fault_ne_zero c info s)⟩
  case first =>
    rw [raise_of_healthy h0]
    cases c <;> rfl

end Sys2Proof.Proofs
end

section
/-! The bit buffer within EMIT and FLUSH, for every pending count the rules allow (42_bit_packer.md R171 to R174). -/

namespace Sys2Proof.Machine

/-- Draining keeps P-b of 42_bit_packer.md R174: both the bits and their count move up by eight. -/
theorem drainByte_clear {s : State} (h8 : 8 ≤ s.cnt.toNat) (hacc : s.acc <<< s.cnt.toNat = 0#32) :
    (drainByte s).acc <<< (drainByte s).cnt.toNat = 0#32 := by
  have hcnt : s.cnt.toNat = 8 + (s.cnt - 8#5).toNat := by bv_omega
  rw [drainByte_acc, drainByte_cnt, ← BitVec.shiftLeft_add, ← hcnt, hacc]

/-- The drain loop keeps P-b of 42_bit_packer.md R174. -/
theorem drainLoop_clear (fuel : Nat) {s : State} (hacc : s.acc <<< s.cnt.toNat = 0#32) :
    (drainLoop fuel s).acc <<< (drainLoop fuel s).cnt.toNat = 0#32 := by
  induction fuel generalizing s with
  | zero => exact hacc
  | succ fuel ih =>
    rw [drainLoop]
    split
    case isTrue h8 => exact ih (drainByte_clear h8 hacc)
    case isFalse => exact hacc

/-- The drain loop ends by its own test when its fuel covers the whole bytes that are pending (42_bit_packer.md R171). -/
theorem drainLoop_cnt_le (fuel : Nat) {s : State} (hcnt : s.cnt.toNat ≤ 8 * fuel + 7) :
    (drainLoop fuel s).cnt.toNat ≤ 7 := by
  induction fuel generalizing s with
  | zero => simpa [drainLoop] using hcnt
  | succ fuel ih =>
    rw [drainLoop]
    split
    case isTrue h8 =>
      have hdrained : s.cnt.toNat = 8 + (s.cnt - 8#5).toNat := by bv_omega
      exact ih (by rw [drainByte_cnt]; omega)
    case isFalse h8 => omega

/-- P-a of 42_bit_packer.md R174 after EMIT: three drains suffice for any 5-bit count. -/
theorem emitted_cnt_le (c : Code) (s : State) : (emitted c s).cnt.toNat ≤ 7 :=
  drainLoop_cnt_le 3 (Nat.le_of_lt_succ (pushBits c s).cnt.isLt)

/-- P-b of 42_bit_packer.md R174 after EMIT. -/
theorem emitted_clear (c : Code) {s : State} (hcnt : s.cnt.toNat ≤ 19) (hacc : s.acc <<< s.cnt.toNat = 0#32) :
    (emitted c s).acc <<< (emitted c s).cnt.toNat = 0#32 := by
  have hpushed : (s.cnt + 12#5).toNat = s.cnt.toNat + 12 := by bv_omega
  refine drainLoop_clear 3 ?_
  rw [pushBits_acc, pushBits_cnt, hpushed]
  exact pushed_clear c (Nat.le_succ_of_le hcnt) hacc

/-- The number of whole bytes in a bit string: what is left over is less than a byte. -/
theorem length_of_flatMap_byteBits_append_pendingBits {bs : List Byte} {t : State} {xs : List Bool}
    (hcnt : t.cnt.toNat ≤ 7) (h : bs.flatMap byteBits ++ pendingBits t = xs) : bs.length = xs.length / 8 := by
  rw [← h, List.length_append, length_flatMap_byteBits, length_pendingBits]
  omega

theorem exec_flush_of_healthy {s : State} (h0 : s.fault = 0#2) : exec .flush s = .next (flush s) :=
  whenHealthy_of_healthy h0 _

/-- FLUSH of a partial byte: the shift clears the accumulator, since at most eight bits were pending (42_bit_packer.md R173). -/
theorem flush_of_pending {s : State} (hpos : 0 < s.cnt.toNat) (hcnt : s.cnt.toNat ≤ 8)
    (hacc : s.acc <<< s.cnt.toNat = 0#32) :
    flush s = { s with acc := 0#32, cnt := 0#5, out := s.out ++ [.outByte (topByte s.acc), .outPersist] } := by
  have hclear : s.acc <<< 8 = 0#32 := by
    rw [← Nat.add_sub_cancel' hcnt, BitVec.shiftLeft_add, hacc, BitVec.zero_shiftLeft]
  simp [flush, hpos, hclear, outPersist, outByte]

end Sys2Proof.Machine

namespace Sys2Proof.Proofs

open Sys2Proof.Machine

/-- Settles O28: the bits are `emitted_bits`, and counting them gives the number of bytes. -/
theorem emitAppendsCodeBits : Obligations.EmitAppendsCodeBits := by
  intro s c h0 hcnt hacc
  have hcnt19 : s.cnt.toNat ≤ 19 := Nat.le_trans hcnt (by decide)
  obtain ⟨bs, hout, hbits⟩ := emitted_bits c hcnt19 hacc
  refine ⟨emitted c s, bs, ?step, ?frame, ?count, emitted_cnt_le c s, emitted_clear c hcnt19 hacc, hbits⟩
  case step => rw [exec_eq_emit h0 (Or.inr rfl), emit_eq_next_iff]; exact ⟨Nat.le_succ_of_le hcnt19, rfl⟩
  case frame => rw [← hout]; exact emitted_eta c s
  case count =>
    rw [length_of_flatMap_byteBits_append_pendingBits (emitted_cnt_le c s) hbits, List.length_append, length_pendingBits,
      length_codeBits]

/-- Settles O29: FLUSH of an empty buffer, whose accumulator is 0 already, and of a partial byte, which is `byteBits_topByte`. -/
theorem flushWritesPartialByte : Obligations.FlushWritesPartialByte := by
  intro s h0 hcnt hacc
  have hcnt8 : s.cnt.toNat ≤ 8 := Nat.le_succ_of_le hcnt
  rw [exec_flush_of_healthy h0]
  refine ⟨fun hzero => ?empty, fun hpos => ⟨topByte s.acc, ?partialByte, byteBits_topByte hcnt8 hacc⟩⟩
  case empty =>
    have hcnt0 : s.cnt = 0#5 := BitVec.eq_of_toNat_eq hzero
    have hacc0 : s.acc = 0#32 := by rwa [hzero, BitVec.shiftLeft_zero] at hacc
    rw [flush_of_empty hcnt0, ← hacc0, ← hcnt0, outPersist]
  case partialByte => rw [flush_of_pending hpos hcnt8 hacc]

end Sys2Proof.Proofs
end

section
/-! Which instruction raises which cause, and that a fault writes the two fault registers only (60_exceptions.md R191, R198). -/

namespace Sys2Proof.Machine

/-- The causes of 60_exceptions.md R191: in `s` the instruction raises this cause and records this `fault_info`. PROBE raises as
BYTE does (log entry 10). -/
inductive Raises (s : State) : Instr → Cause → BitVec 16 → Prop
  | ioFail (r : Byte) : Raises s (.abort r) .ioFail (0x0300#16 ||| r.setWidth 16)
  | protocol {i : Instr} {w : CmdWord} (hi : encode i = .command w) (hp : protocolIn i s.state = true) :
      Raises s i .protocol (w.setWidth 16)
  | byteOverflow {b : Byte} (hrun : s.state = .running) (hp : probe s.table (readCur s) b = .overflow) :
      Raises s (.byte b) .probeOverflow (BitVec.ofNat 16 (hashIndex (readCur s) b))
  | probeOverflow {p : Code} {b : Byte} (hp : probe s.table p b = .overflow) :
      Raises s (.probe p b) .probeOverflow (BitVec.ofNat 16 (hashIndex p b))

/-- What raising a cause does in a healthy core: the two fault registers are written, and nothing else. -/
theorem Raises.exec_eq {s : State} {i : Instr} {c : Cause} {info : BitVec 16} (h : Raises s i c info) (h0 : s.fault = 0#2) :
    exec i s = .next { s with fault := causeCode c, faultInfo := info } := by
  cases h with
  | ioFail r => exact exec_abort_of_healthy h0 r
  | protocol hi hp => exact exec_of_protocolIn h0 hi hp
  | byteOverflow hrun hp => exact exec_byte_of_overflow h0 hrun hp
  | probeOverflow hp => exact exec_probe_of_overflow h0 hp

/-- The next state of an instruction that raises a cause. -/
theorem Raises.next_eq {s t : State} {i : Instr} {c : Cause} {info : BitVec 16} (h : Raises s i c info) (h0 : s.fault = 0#2)
    (hx : exec i s = .next t) : t = { s with fault := causeCode c, faultInfo := info } :=
  Host.Outcome.next.inj (hx.symm.trans (h.exec_eq h0))

/-- What an instruction can do to the fault registers of a healthy core: raise one of the causes, or leave them as they were. -/
theorem exec_fault_cases {i : Instr} {s t : State} (h0 : s.fault = 0#2) (hx : exec i s = .next t) :
    (∃ c info, Raises s i c info) ∨ (t.fault = 0#2 ∧ t.faultInfo = s.faultInfo) := by
  have hpacked : ∀ c, encode i = .code c ∨ i = .emit c → t.fault = 0#2 ∧ t.faultInfo = s.faultInfo := fun c hi => by
    rw [execPacked_frame h0 hi hx]
    exact ⟨h0, rfl⟩
  cases i with
  | init =>
    rcases execInit_cases h0 hx with ⟨hprotocol, -⟩ | ⟨-, rfl⟩
    · exact Or.inl ⟨_, _, .protocol rfl hprotocol⟩
    · exact Or.inr ⟨h0, rfl⟩
  | byte b =>
    rcases execByte_cases h0 hx with ⟨hprotocol, -⟩ | ⟨-, rfl⟩ | ⟨-, idx, n, e, -, rfl⟩ | ⟨-, -, idx, n, -, rfl⟩ |
      ⟨hrun, hover, -⟩
    · exact Or.inl ⟨_, _, .protocol rfl hprotocol⟩
    · exact Or.inr ⟨h0, rfl⟩
    · exact Or.inr ⟨h0, rfl⟩
    · exact Or.inr ⟨h0, rfl⟩
    · exact Or.inl ⟨_, _, .byteOverflow hrun hover⟩
  | endOfInput =>
    rcases execEndOfInput_cases h0 hx with ⟨hprotocol, -⟩ | ⟨-, ht, -⟩
    · exact Or.inl ⟨_, _, .protocol rfl hprotocol⟩
    · rw [ht]
      exact Or.inr ⟨h0, rfl⟩
  | abort r => exact Or.inl ⟨_, _, .ioFail r⟩
  | lit b => exact Or.inr (hpacked _ (Or.inl rfl))
  | str c => exact Or.inr (hpacked _ (Or.inl rfl))
  | eos => exact Or.inr (hpacked _ (Or.inl rfl))
  | emit c => exact Or.inr (hpacked _ (Or.inr rfl))
  | flush =>
    rw [execFlush_cases h0 hx, flush_eta]
    exact Or.inr ⟨h0, rfl⟩
  | hash p b =>
    rw [execHash_cases h0 hx]
    exact Or.inr ⟨h0, rfl⟩
  | offset j =>
    rw [(execOffset_cases h0 hx).2]
    exact Or.inr ⟨h0, rfl⟩
  | probe p b =>
    rcases execProbe_cases h0 hx with ⟨hover, -⟩ | ⟨idx, n, -, rfl⟩
    · exact Or.inl ⟨_, _, .probeOverflow hover⟩
    · exact Or.inr ⟨h0, rfl⟩
  | insert j p b c =>
    rw [(execInsert_cases h0 hx).2]
    exact Or.inr ⟨h0, rfl⟩

/-- The cause codes are distinct (60_exceptions.md R191). -/
theorem causeCode_injective : Function.Injective causeCode := by
  intro c d
  cases c <;> cases d <;> decide

/-- The fault register tells which cause was raised (60_exceptions.md R191). -/
theorem fault_eq_causeCode_iff {i : Instr} {s t : State} (h0 : s.fault = 0#2) (hx : exec i s = .next t) (c : Cause) :
    t.fault = causeCode c ↔ ∃ info, Raises s i c info := by
  refine ⟨fun hc => ?raised, fun ⟨info, hraise⟩ => by rw [hraise.next_eq h0 hx]⟩
  case raised =>
    rcases exec_fault_cases h0 hx with ⟨d, info, hraise⟩ | ⟨hzero, -⟩
    · have hdc : causeCode d = causeCode c := by rw [← hc, hraise.next_eq h0 hx]
      exact ⟨info, causeCode_injective hdc ▸ hraise⟩
    · exact absurd (hc.symm.trans hzero) (causeCode_ne_zero c)

theorem exists_raises_ioFail_iff {s : State} {i : Instr} : (∃ info, Raises s i .ioFail info) ↔ ∃ r, i = .abort r := by
  constructor
  · rintro ⟨_, hraise⟩
    cases hraise with
    | ioFail r => exact ⟨r, rfl⟩
  · rintro ⟨r, rfl⟩
    exact ⟨_, .ioFail r⟩

/-- Only a command has an entry PROTOCOL in the transition table (41_encoder_loop.md R131). -/
theorem exists_command_of_protocolIn {i : Instr} {st : Phase} (h : protocolIn i st = true) : ∃ w, encode i = .command w := by
  cases i with
  | init | byte | endOfInput | abort => exact ⟨_, rfl⟩
  | lit | str | eos | hash | offset | probe | insert | emit | flush => cases h

theorem exists_raises_protocol_iff {s : State} {i : Instr} :
    (∃ info, Raises s i .protocol info) ↔ protocolIn i s.state = true := by
  constructor
  · rintro ⟨_, hraise⟩
    cases hraise with
    | protocol hi hp => exact hp
  · intro hp
    obtain ⟨w, hi⟩ := exists_command_of_protocolIn hp
    exact ⟨_, .protocol hi hp⟩

theorem exists_raises_probeOverflow_iff {s : State} {i : Instr} :
    (∃ info, Raises s i .probeOverflow info) ↔
      (∃ b, i = .byte b ∧ s.state = .running ∧ probe s.table (readCur s) b = .overflow) ∨
      (∃ p b, i = .probe p b ∧ probe s.table p b = .overflow) := by
  constructor
  · rintro ⟨_, hraise⟩
    cases hraise with
    | byteOverflow hrun hp => exact Or.inl ⟨_, rfl, hrun, hp⟩
    | probeOverflow hp => exact Or.inr ⟨_, _, rfl, hp⟩
  · rintro (⟨b, rfl, hrun, hp⟩ | ⟨p, b, rfl, hp⟩)
    · exact ⟨_, .byteOverflow hrun hp⟩
    · exact ⟨_, .probeOverflow hp⟩

end Sys2Proof.Machine

namespace Sys2Proof.Proofs

open Sys2Proof.Machine

/-- Settles O18: a next state with a fault is one a cause was raised in, and raising writes the two fault registers only. -/
theorem faultingStepWritesOnlyFaultRegisters : Obligations.FaultingStepWritesOnlyFaultRegisters := by
  intro i s t h0 hx hfault
  rcases exec_fault_cases h0 hx with ⟨c, info, hraise⟩ | ⟨hzero, -⟩
  · rw [hraise.next_eq h0 hx]
  · exact absurd hzero hfault

/-- Settles O19: `fault` tells which cause was raised, by whom and when is the inversion of that cause, and `fault_info` is
what it records. -/
theorem causeCodesAndInfo : Obligations.CauseCodesAndInfo := by
  intro i s t h0 hx
  have hcause := fault_eq_causeCode_iff h0 hx
  have hinfo : ∀ {c info}, Raises s i c info → t.faultInfo = info := fun hraise => by rw [hraise.next_eq h0 hx]
  refine ⟨(hcause .ioFail).trans exists_raises_ioFail_iff, ?abortInfo,
    (hcause .protocol).trans exists_raises_protocol_iff, fun w hp hi => hinfo (.protocol hi hp),
    (hcause .probeOverflow).trans exists_raises_probeOverflow_iff, ?byteInfo, ?probeInfo, ?unfaulted⟩
  case abortInfo =>
    rintro r rfl
    exact hinfo (.ioFail r)
  case byteInfo =>
    rintro b h3 rfl
    obtain ⟨info, hraise⟩ := (hcause .probeOverflow).1 h3
    rw [hinfo hraise]
    cases hraise with
    | byteOverflow hrun hp => rfl
  case probeInfo =>
    rintro p b h3 rfl
    obtain ⟨info, hraise⟩ := (hcause .probeOverflow).1 h3
    rw [hinfo hraise]
    cases hraise with
    | probeOverflow hp => rfl
  case unfaulted =>
    intro hzero
    rcases exec_fault_cases h0 hx with ⟨c, info, hraise⟩ | ⟨-, hsame⟩
    · exact absurd (((hcause c).2 ⟨info, hraise⟩).symm.trans hzero) (causeCode_ne_zero c)
    · exact hsame

end Sys2Proof.Proofs
end

section
/-! The step with no action of the host (60_exceptions.md R203). -/

namespace Sys2Proof.Machine

/-- Without an action of the host the core holds its state (60_exceptions.md R203). -/
theorem step_of_idle {s : State} (h : s.input = []) : step s = .next s := by
  rw [step, takeAction, nextAction, h]

end Sys2Proof.Machine

namespace Sys2Proof.Proofs

open Sys2Proof.Machine

/-- Settles O7: the host's list is empty, so the step takes no action. -/
theorem idleStepHoldsState : Obligations.IdleStepHoldsState := fun _ => step_of_idle

end Sys2Proof.Proofs
end
